-- ==== Sys2Proof/Word.lean ====
section
/-! DEFINITION. The word types of the CYMRIC-GF128 block (00_scope.md R8, R9, R10). -/

namespace Sys2Proof

/-- A byte, an integer 0 to 255 (R8). -/
abbrev Byte := BitVec 8

/-- The contents of a 32-bit control register; bit 0 is the least significant (R10). -/
abbrev Word := BitVec 32

/-- A block, a sequence of exactly 16 bytes `B[0] .. B[15]` (R8). It is held as the number `be128` of R9, so that the
32 hexadecimal digits of a literal are the 32 digits the spec writes, first byte first (DESIGN CHOICE, log entry 10).
`Sys2Proof.Machine.byteAt` reads a byte of the sequence. -/
abbrev Block := BitVec 128

/-- A register number, 4 bits (20_memory.md R50). -/
abbrev RegNum := BitVec 4

end Sys2Proof
end

