-- ==== Sys2Proof/Config.lean ====
section
/-! DEFINITION. The parameters of the block (00_scope.md R7; 10_state.md R45; 92_eei_decisions.md, open parameters). -/

namespace Sys2Proof

/-- The key-slot select of the cipher port, 1 bit (20_memory.md R58): slot 0 holds the primary sub-key, slot 1 the
second sub-key (R59). -/
inductive KeySlot where
  | slot0
  | slot1
deriving DecidableEq, Repr

/-- A block cipher seen through the cipher port: key slot and block to block (00_scope.md R7, 20_memory.md R59). -/
abbrev Cipher := KeySlot → Block → Block

/-- The side on which the domain-separated blocks get their zero bytes (`P_PADSIDE`, 00_scope.md R7). -/
inductive PadSide where
  | left
  | right
deriving DecidableEq, Repr

namespace Config

/-- The block cipher `E` of R7: a total function, fixed for the run, of which nothing is assumed (93 U5, U8; R59).
It has no body, so no proof can lean on a value of it. Log entry 1. -/
opaque E : Cipher

/-- `P_PADSIDE = LEFT` (R7, decision D16; UNVERIFIED against the reference code, log entry 11). -/
def padSide : PadSide := .left

/-- `BLOCKBYTES` (R7). -/
def blockBytes : Nat := 16

/-- `MLEN_MAX` (R7), also the cap of `XLEN` (40_field_unit.md R100). -/
def lenMax : Nat := 16

/-- `NA_MAX`, the cap on nonce length plus associated-data length (R7). -/
def nonceAdMax : Nat := 15

/-- The coefficient integer of the reduction polynomial `x^128 + x^7 + x^2 + x + 1` (R7, 40_field_unit.md R93). -/
def reductionPoly : Nat := 2 ^ 128 + 0x87

end Config

end Sys2Proof
end

