-- ==== Sys2Proof/Syntax.lean ====
section
/-! DEFINITION. The commands of the block, one constructor per row of the command table (30_encoding.md R75). -/

namespace Sys2Proof

/-- The six commands (R75). Every immediate is an unsigned 8-bit number, and all 256 values are encodable (R73), so the
fields are 8 bits wide and no other value exists (93_implementation_defined.md U10). -/
inductive Instr where
  /-- CLEAR, format Z. -/
  | clear
  /-- GFMAC, format F. -/
  | gfmac (xlen : Byte)
  /-- PVMAC, format F. -/
  | pvmac (xlen : Byte)
  /-- PVKEY, format Z. -/
  | pvkey
  /-- CY2ENC, format A. -/
  | cy2enc (nlen alen dlen : Byte)
  /-- CY2DEC, format A. -/
  | cy2dec (nlen alen dlen : Byte)
deriving DecidableEq, Repr

end Sys2Proof
end

