-- ==== Sys2Proof/Machine/HostPort.lean ====
section
/-! DEFINITION. What the outside world can do to the block: the transactions of the register port (20_memory.md section 1),
reset (70_reset_and_hazards.md R180), the agents of a run (00_scope.md R14) and the lines of a host script
(30_encoding.md R79, R80). -/

namespace Sys2Proof

/-- A value that crosses the register port: 32 bits for CMD, STATUS, CTRL, one block for the others (R54). -/
inductive RegValue where
  | word (v : Word)
  | block (v : Block)
deriving DecidableEq, Repr

/-- The register number is assigned: 0 to 11 (10_state.md R20). -/
def RegNum.assigned (i : RegNum) : Bool := decide (i.toNat < 12)

/-- The register is one of the three 32-bit control registers, numbers 0 to 2 (R20). -/
def RegNum.isControl (i : RegNum) : Bool := decide (i.toNat < 3)

/-- The value has the register's width: 32 bits for 0 to 2, a block for the others (20_memory.md R54). -/
def RegValue.fits (v : RegValue) (i : RegNum) : Bool :=
  match v with
  | .word _ => RegNum.isControl i
  | .block _ => !RegNum.isControl i

/-- One action of the host. -/
inductive HostAction where
  /-- `RegRead(i)` (R50, R51). -/
  | read (i : RegNum)
  /-- `RegWrite(i, v)` (R50, R52, R53). -/
  | write (i : RegNum) (v : RegValue)
  /-- The pseudo-line `wait` (R80): read STATUS again and again until BUSY reads 0. -/
  | wait
  /-- Assert the reset input (R180). -/
  | reset
deriving DecidableEq, Repr

/-- The agents that take steps (R14). -/
inductive Agent where
  | host
  | sequencer
  | collaborator
deriving DecidableEq, Repr

/-- One line of a host script (R79), pseudo-lines included (R80). -/
inductive HostLine where
  /-- `wr REG, value` -/
  | wr (i : RegNum) (v : RegValue)
  /-- `rd REG` -/
  | rd (i : RegNum)
  /-- `clear`, `gfmac xlen`, `pvmac xlen`, `pvkey`, `cy2enc nlen, alen, dlen`, `cy2dec nlen, alen, dlen` -/
  | command (i : Instr)
  /-- `cmd 0xWWWWWWWW` -/
  | cmd (w : Word)
  /-- `wait` -/
  | wait
  /-- `ack` -/
  | ack
  /-- `absorb.g block, xlen` -/
  | absorbG (b : Block) (xlen : Byte)
  /-- `absorb.p block, xlen` -/
  | absorbP (b : Block) (xlen : Byte)
deriving DecidableEq, Repr

end Sys2Proof
end

