-- ==== Sys2Proof/WellFormed.lean ====
section
/-! DEFINITION. Well-formedness of commands and of the host's transactions. -/

namespace Sys2Proof

/-- Every command term is well formed: all 256 values of every immediate are encodable, and a value above a cap is no
illegal encoding but ends in a length error (30_encoding.md R73); a wider value cannot be written (93 U10). One arm per
constructor, so that a command added later must be judged here. -/
def Instr.wellFormed : Instr → Bool
  | .clear => true
  | .gfmac _ => true
  | .pvmac _ => true
  | .pvkey => true
  | .cy2enc _ _ _ => true
  | .cy2dec _ _ _ => true

/-- A host action the register port knows: an assigned number and, for a write, a value of that register's width
(R50, R54; reserved numbers are no move of the host, 93 U6). -/
def HostAction.wellFormed : HostAction → Bool
  | .read i => RegNum.assigned i
  | .write i v => RegNum.assigned i && v.fits i
  | .wait => true
  | .reset => true

end Sys2Proof
end

