-- ==== Sys2Proof/Decode.lean ====
section
/-! DEFINITION. The decoder of 30_encoding.md R76 and, after it, the encoder of R71. -/

namespace Sys2Proof

/-- Why a word is an illegal command (30_encoding.md R77). All of them end in the same way, `complete(0xFE)` (R162). -/
inductive IllegalWord where
  /-- `OPC` is no opcode of the table. -/
  | unassignedOpcode (opc : Byte)
  /-- `OPC` is 0x22 or 0x23, set aside for Cymric1 (42_housekeeping.md R152). -/
  | reservedForCymric1 (opc : Byte)
  /-- A Z- or F-format opcode with a must-be-zero bit set (R71). -/
  | mustBeZero (opc : Byte)
deriving DecidableEq, Repr

/-- `OPC`, bits 7:0 (R71). -/
def opcodeField (w : Word) : Byte := w.extractLsb' 0 8

/-- Bits 15:8: `XLEN` in format F, `NLEN` in format A (R71, R73). -/
def field1 (w : Word) : Byte := w.extractLsb' 8 8

/-- Bits 23:16: `ALEN` in format A (R71, R73). -/
def field2 (w : Word) : Byte := w.extractLsb' 16 8

/-- Bits 31:24: `DLEN` in format A (R71, R73). -/
def field3 (w : Word) : Byte := w.extractLsb' 24 8

/-- The decoder of R76, total on all words; an illegal word is rejected by name. -/
def decode (w : Word) : Except IllegalWord Instr :=
  let opc := opcodeField w
  if opc = 0x01#8 then
    if w.extractLsb' 8 24 = 0#24 then .ok .clear else .error (.mustBeZero opc)
  else if opc = 0x10#8 then
    if w.extractLsb' 16 16 = 0#16 then .ok (.gfmac (field1 w)) else .error (.mustBeZero opc)
  else if opc = 0x11#8 then
    if w.extractLsb' 16 16 = 0#16 then .ok (.pvmac (field1 w)) else .error (.mustBeZero opc)
  else if opc = 0x12#8 then
    if w.extractLsb' 8 24 = 0#24 then .ok .pvkey else .error (.mustBeZero opc)
  else if opc = 0x20#8 then .ok (.cy2enc (field1 w) (field2 w) (field3 w))
  else if opc = 0x21#8 then .ok (.cy2dec (field1 w) (field2 w) (field3 w))
  else if opc = 0x22#8 ∨ opc = 0x23#8 then .error (.reservedForCymric1 opc)
  else .error (.unassignedOpcode opc)

/-- The host's question to the decoder: the instruction whose bits are `w`, numbered as the opcode table numbers them.
A command word has 32 bits and no byte order (20_memory.md R55), so the number is the word (log entry 14). -/
def decodeTableWord (nbits w : Nat) : Option Instr :=
  if nbits ≤ 32 ∧ w < 2 ^ 32 then (decode (BitVec.ofNat 32 w)).toOption else none

/-- The opcode of each command (R74, R75). -/
def Instr.opcode : Instr → Byte
  | .clear => 0x01#8
  | .gfmac _ => 0x10#8
  | .pvmac _ => 0x11#8
  | .pvkey => 0x12#8
  | .cy2enc _ _ _ => 0x20#8
  | .cy2dec _ _ _ => 0x21#8

/-- The formula of R71: `w = OPC | (f1 << 8) | (f2 << 16) | (f3 << 24)`. -/
def commandWord (opc f1 f2 f3 : Byte) : Word :=
  opc.setWidth 32 ||| (f1.setWidth 32 <<< 8) ||| (f2.setWidth 32 <<< 16) ||| (f3.setWidth 32 <<< 24)

/-- The encoder: the command word of an instruction (R71: fields (0, 0, 0) for Z, (XLEN, 0, 0) for F,
(NLEN, ALEN, DLEN) for A). -/
def encode (i : Instr) : Word :=
  match i with
  | .clear => commandWord i.opcode 0 0 0
  | .gfmac xlen => commandWord i.opcode xlen 0 0
  | .pvmac xlen => commandWord i.opcode xlen 0 0
  | .pvkey => commandWord i.opcode 0 0 0
  | .cy2enc nlen alen dlen => commandWord i.opcode nlen alen dlen
  | .cy2dec nlen alen dlen => commandWord i.opcode nlen alen dlen

/-- The column `mask` of the command table (R75). -/
def Instr.mask : Instr → Word
  | .clear => 0xFFFFFFFF#32
  | .gfmac _ => 0xFFFF00FF#32
  | .pvmac _ => 0xFFFF00FF#32
  | .pvkey => 0xFFFFFFFF#32
  | .cy2enc _ _ _ => 0x000000FF#32
  | .cy2dec _ _ _ => 0x000000FF#32

/-- The column `match` of the command table (R75). -/
def Instr.matchWord : Instr → Word
  | .clear => 0x00000001#32
  | .gfmac _ => 0x00000010#32
  | .pvmac _ => 0x00000011#32
  | .pvkey => 0x00000012#32
  | .cy2enc _ _ _ => 0x00000020#32
  | .cy2dec _ _ _ => 0x00000021#32

end Sys2Proof
end

