-- ==== Sys2Proof/Machine/Bytes.lean ====
section
/-! DEFINITION. A block as a sequence of bytes and as a number (00_scope.md R8, R9, R15). -/

namespace Sys2Proof.Machine

/-- `B[i]`, byte `i` of a block; `B[0]` is the first byte (R8). -/
def byteAt (B : Block) (i : Nat) : Byte := B.extractLsb' (8 * (15 - i)) 8

/-- `bytes(B, i, n)`, the `n` bytes `B[i], ..., B[i+n-1]` (R8). -/
def bytes (B : Block) (i n : Nat) : List Byte := (List.range n).map fun k => byteAt B (i + k)

/-- `0^n`, `n` bytes of value zero (R8). -/
def zeros (n : Nat) : List Byte := List.replicate n 0

/-- The block whose bytes are `l`, first byte first (R8). Its callers give it 16 bytes; each byte moves the ones before
it up by one place, so fewer bytes stand at the end of the block. -/
def blockOf (l : List Byte) : Block := l.foldl (fun acc b => (acc <<< 8) ||| b.setWidth 128) 0

/-- `be32` (R9). -/
def be32 (b0 b1 b2 b3 : Byte) : Nat :=
  b0.toNat * 2 ^ 24 + b1.toNat * 2 ^ 16 + b2.toNat * 2 ^ 8 + b3.toNat

/-- `be128`, the block read as one big-endian 128-bit integer (R9). -/
def be128 (B : Block) : Nat := B.toNat

/-- `blk`, the inverse of `be128` (R9). -/
def blk (v : Nat) : Block := BitVec.ofNat 128 v

/-- `Rev(B)`, the block with `Rev(B)[i] = B[15-i]` (R15). -/
def rev (B : Block) : Block := blockOf (bytes B 0 16).reverse

/-- `pad0(X, n)` for `0 ≤ n ≤ 16`: the first `n` bytes of `X`, then zeros (R15). -/
def pad0 (X : Block) (n : Nat) : Block := blockOf (bytes X 0 n ++ zeros (16 - n))

/-- `pad0(s)` of a byte string shorter than or equal to 16: `s` and then zeros (41_cymric_engine.md R129). -/
def pad0String (s : List Byte) : Block := blockOf (s ++ zeros (16 - s.length))

end Sys2Proof.Machine
end

