-- ==== Sys2Proof/Machine/State.lean ====
section
/-! DEFINITION. The state of the block (10_state.md R20, R34), with the host's pending actions and the interleaving as plain
data, the ways a step can stop, and the reset state (R43). -/

namespace Sys2Proof.Machine

/-- `PHASE` (R33): how far the sequencer is through the command in flight. -/
inductive Phase where
  /-- IDLE: no command in flight. -/
  | idle
  /-- DISPATCH: a command word was accepted and not yet looked at. -/
  | dispatch
  /-- AE_WAIT1: waiting for the answer to the dual-block request. -/
  | aeWait1
  /-- AE_WAIT2: waiting for the answer to the tag request. -/
  | aeWait2
deriving DecidableEq, Repr

/-- The fields of `STATUS` (R22); its reserved bits read as 0 and hold nothing (log entry 8). -/
structure Status where
  busy : Bool
  done : Bool
  ovr : Bool
  rc : Byte
deriving DecidableEq, Repr

/-- `CREQ`, the request pending on the cipher port (R34). -/
structure CipherRequest where
  valid : Bool
  ksel : KeySlot
  in0 : Block
  in1 : Block
deriving DecidableEq, Repr

/-- `CRSP`, the answer delivered on the cipher port and not yet consumed (R34). -/
structure CipherAnswer where
  valid : Bool
  out0 : Block
  out1 : Block
deriving DecidableEq, Repr

/-- `CREQ` with `valid = 0` and its blocks cleared (R43, 60_exceptions.md R163; log entry 9). -/
def CipherRequest.cleared : CipherRequest := ⟨false, .slot0, 0, 0⟩

/-- `CRSP` with `valid = 0` and its blocks cleared (R43, R163; log entry 9). -/
def CipherAnswer.cleared : CipherAnswer := ⟨false, 0, 0⟩

/-- The stops of the model that are faults. The spec has none: every command ends with a result code
(60_exceptions.md R160). -/
inductive Fault where
  /-- Raised by the host's write when the value has not the width of register `i`: there is no such access
  (20_memory.md R54). Safe: the model stops where no hardware access exists. Log entry 5. -/
  | widthMismatch (i : RegNum)
deriving DecidableEq, Repr

/-- The stops of the model that are refusals. -/
inductive Refusal where
  /-- Raised by an arm of `exec` for a command without a meaning; none is left. Safe. -/
  | notModelled (mnemonic : String)
  /-- Raised by a host access to register number 12 to 15, which a model should refuse (93 U6, decision D30). Safe: the
  model stops. Log entry 5. -/
  | reservedRegister (i : RegNum)
deriving DecidableEq, Repr

/-- The state: the twelve registers of R20, the hidden state of R34 and, last, three fields of the model's own that hold
the outside world as plain data (log entries 2 and 3). -/
structure State where
  cmd : Word
  status : Status
  /-- `CTRL.IE`; the other bits of `CTRL` are reserved and read as 0 (R23). -/
  ie : Bool
  y : Block
  h : Block
  x : Block
  n : Block
  a : Block
  din : Block
  tagin : Block
  dout : Block
  tagout : Block
  phase : Phase
  tY0 : Block
  tY1 : Block
  tM : Block
  tT : Block
  creq : CipherRequest
  crsp : CipherAnswer
  /-- The model's own: the host's actions still to come, oldest first (00_scope.md R18). -/
  hostQueue : List HostAction
  /-- The model's own: which agent moves next, next first (00_scope.md R14). -/
  schedule : List Agent
  /-- The model's own: what `RegRead` returned, newest first (20_memory.md R51). -/
  reads : List (RegNum × RegValue)
deriving DecidableEq, Repr

/-- The state after reset (R43, 70_reset_and_hazards.md R180); the model's own three fields are empty (log entries 2, 3). -/
def State.reset : State where
  cmd := 0
  status := ⟨false, false, false, 0⟩
  ie := false
  y := 0
  h := 0
  x := 0
  n := 0
  a := 0
  din := 0
  tagin := 0
  dout := 0
  tagout := 0
  phase := .idle
  tY0 := 0
  tY1 := 0
  tM := 0
  tT := 0
  creq := .cleared
  crsp := .cleared
  hostQueue := []
  schedule := []
  reads := []

end Sys2Proof.Machine
end

