-- ==== Sys2Proof/Machine/Flags.lean ====
section
/-! DEFINITION. The flags of `STATUS` (10_state.md R22, R40), the result codes (60_exceptions.md R160), the interrupt line
(R168) and the tag comparator (41_cymric_engine.md R128). -/

namespace Sys2Proof.Machine

/-- The four result codes (R160). -/
inductive ResultCode where
  | ok
  | lengthError
  | authFailure
  | illegalCommand
deriving DecidableEq, Repr

/-- The byte of `STATUS.RC` for each result code (R160). -/
def ResultCode.byte : ResultCode → Byte
  | .ok => 0x00#8
  | .lengthError => 0xFF#8
  | .authFailure => 0x01#8
  | .illegalCommand => 0xFE#8

/-- `RC` read as a two's-complement signed byte, the document's return value (R160; `sext` of 00_scope.md R10). -/
def rcSigned (rc : Byte) : Int := rc.toInt

/-- One flag as the lowest bit of a 32-bit word. -/
def flagBit (b : Bool) : Word := if b then 1#32 else 0#32

/-- The word a host reads from `STATUS`: BUSY in bit 0, DONE in bit 1, OVR in bit 2, RC in bits 15:8, zeros elsewhere
(R22). -/
def Status.word (st : Status) : Word :=
  flagBit st.busy ||| (flagBit st.done <<< 1) ||| (flagBit st.ovr <<< 2) ||| (st.rc.setWidth 32 <<< 8)

/-- The word a host reads from `CTRL`: IE in bit 0, zeros elsewhere (R23). -/
def ctrlWord (ie : Bool) : Word := flagBit ie

/-- A host write of `v` to `STATUS` while not busy: `DONE <- DONE & ~v[1]`, `OVR <- OVR & ~v[2]`, nothing else (R22). -/
def Status.clearOnWrite (st : Status) (v : Word) : Status :=
  { st with done := st.done && !v.getLsbD 1, ovr := st.ovr && !v.getLsbD 2 }

/-- The flags after acceptance: BUSY set, DONE and RC cleared, OVR kept (R35, R40). -/
def Status.accepted (st : Status) : Status := { st with busy := true, done := false, rc := 0x00#8 }

/-- The flags after completion with `rc`: BUSY cleared, DONE set, RC written, OVR kept (R163, R40). -/
def Status.completed (st : Status) (rc : ResultCode) : Status :=
  { st with busy := false, done := true, rc := rc.byte }

/-- The flags after a dropped write: OVR set (20_memory.md R53, R40). -/
def Status.dropped (st : Status) : Status := { st with ovr := true }

/-- The interrupt output, `STATUS.DONE & CTRL.IE` at every instant (60_exceptions.md R168). -/
def irq (s : State) : Bool := s.status.done && s.ie

/-- The constant-time comparator: the OR of the differences of all sixteen bytes (41_cymric_engine.md R128). -/
def ctDiff (U V : Block) : Byte :=
  (List.range 16).foldl (fun acc i => acc ||| (byteAt U i ^^^ byteAt V i)) 0

end Sys2Proof.Machine
end

