-- ==== Sys2Proof/Machine/Operands.lean ====
section
/-! DEFINITION. The operands the commands form from the registers and the length immediates: the absorbed block of the
Field Unit (40_field_unit.md R100) and the blocks of the AEAD Engine (41_cymric_engine.md R121, R122, R126). -/

namespace Sys2Proof.Machine

/-- `XLEN > 16` (40_field_unit.md R100), on naturals (30_encoding.md R73). -/
def xlenTooLong (xlen : Byte) : Bool := decide (Config.lenMax < xlen.toNat)

/-- `DLEN > 16` or `NLEN + ALEN > 15`, the sum on naturals without wrap-around (41_cymric_engine.md R121, R73). -/
def lengthsBad (nlen alen dlen : Byte) : Bool :=
  decide (Config.lenMax < dlen.toNat) || decide (Config.nonceAdMax < nlen.toNat + alen.toNat)

/-- The domain byte `d0 = (b << 7) | 0x20`, with `b = 1` if and only if the message is a full block (R122). -/
def domainByte0 (dlen : Nat) : Byte := (if dlen = 16 then 0x80#8 else 0#8) ||| 0x20#8

/-- The domain byte `d1 = d0 | 0x40` (R122). -/
def domainByte1 (dlen : Nat) : Byte := domainByte0 dlen ||| 0x40#8

/-- A domain-separated block from nonce, associated data and domain byte, with the zero bytes on the given side
(R122; `P_PADSIDE` of 00_scope.md R7). -/
def domainBlock (side : PadSide) (n a : List Byte) (d : Byte) : Block :=
  let body := n ++ a ++ [d]
  let fill := zeros (15 - n.length - a.length)
  match side with
  | .left => blockOf (fill ++ body)
  | .right => blockOf (body ++ fill)

/-- `P0` for a nonce and associated data given as byte strings (R122). -/
def p0Of (n a : List Byte) (dlen : Nat) : Block := domainBlock Config.padSide n a (domainByte0 dlen)

/-- `P1` for a nonce and associated data given as byte strings (R122). -/
def p1Of (n a : List Byte) (dlen : Nat) : Block := domainBlock Config.padSide n a (domainByte1 dlen)

/-- `P0` from the registers `N`, `A` and the length immediates (R122). -/
def p0 (N A : Block) (nlen alen dlen : Nat) : Block := p0Of (bytes N 0 nlen) (bytes A 0 alen) dlen

/-- `P1` from the registers `N`, `A` and the length immediates (R122). -/
def p1 (N A : Block) (nlen alen dlen : Nat) : Block := p1Of (bytes N 0 nlen) (bytes A 0 alen) dlen

/-- `pad10(M, DLEN)`: one byte `0x80` after the message and then zeros, or nothing after a full block (R126; the zeros
are the spec's decision D17). -/
def pad10 (M : Block) (dlen : Nat) : Block :=
  if dlen < 16 then blockOf (bytes M 0 dlen ++ [0x80#8] ++ zeros (15 - dlen)) else M

/-- `pad10` of a byte string of at most 16 bytes (R126, R129). -/
def pad10String (m : List Byte) : Block :=
  if m.length < 16 then blockOf (m ++ [0x80#8] ++ zeros (15 - m.length)) else blockOf m

end Sys2Proof.Machine
end

