-- ==== Sys2Proof/Machine/Ops.lean ====
section
/-! DEFINITION. The shared operations: register reads and writes (20_memory.md R51 to R53), acceptance (10_state.md R35),
completion, which stands where another manual has exception entry (60_exceptions.md R163), the sequencer's enabling, and
reset (70_reset_and_hazards.md R180). There is no return from an exception (60_exceptions.md R166). -/

namespace Sys2Proof.Machine

/-- `complete(rc)`, the single way a command ends (60_exceptions.md R163). -/
def complete (rc : ResultCode) (s : State) : State :=
  { s with
    status := s.status.completed rc
    phase := .idle
    tY0 := 0
    tY1 := 0
    tM := 0
    tT := 0
    creq := .cleared
    crsp := .cleared }

/-- `raise <Condition>(rc)`: the rest of the command is abandoned and `complete(rc)` performed (00_scope.md R13). -/
def raise (rc : ResultCode) (s : State) : State := complete rc s

/-- The accept step of a command word (10_state.md R35). -/
def accept (w : Word) (s : State) : State :=
  { s with cmd := w, status := s.status.accepted, phase := .dispatch }

/-- A host write dropped because the block is busy (20_memory.md R53). -/
def dropWrite (s : State) : State := { s with status := s.status.dropped }

/-- `RegRead(i)`: the current value of register `i` at its full width, or nothing for a reserved number
(20_memory.md R51; 10_state.md R20). -/
def regRead (s : State) (i : RegNum) : Option RegValue :=
  match i.toNat with
  | 0 => some (.word s.cmd)
  | 1 => some (.word s.status.word)
  | 2 => some (.word (ctrlWord s.ie))
  | 3 => some (.block s.y)
  | 4 => some (.block s.h)
  | 5 => some (.block s.x)
  | 6 => some (.block s.n)
  | 7 => some (.block s.a)
  | 8 => some (.block s.din)
  | 9 => some (.block s.tagin)
  | 10 => some (.block s.dout)
  | 11 => some (.block s.tagout)
  | _ => none

/-- A host write of a word to a control register while not busy (20_memory.md R52). -/
def writeControl (s : State) (i : RegNum) (v : Word) : State :=
  match i.toNat with
  | 0 => accept v s
  | 1 => { s with status := s.status.clearOnWrite v }
  | 2 => { s with ie := v.getLsbD 0 }
  | _ => s

/-- A host write of a block to a data register while not busy: registers 3 to 9 take it, DOUT and TAGOUT drop it
without setting OVR (20_memory.md R52). -/
def writeData (s : State) (i : RegNum) (v : Block) : State :=
  match i.toNat with
  | 3 => { s with y := v }
  | 4 => { s with h := v }
  | 5 => { s with x := v }
  | 6 => { s with n := v }
  | 7 => { s with a := v }
  | 8 => { s with din := v }
  | 9 => { s with tagin := v }
  | _ => s

/-- `RegWrite(i, v)` for an access the port knows: dropped while busy (20_memory.md R53), else by register number (R52). -/
def regWrite (s : State) (i : RegNum) (v : RegValue) : State :=
  if s.status.busy then dropWrite s
  else match v with
    | .word w => writeControl s i w
    | .block b => writeData s i b

/-- Reset: the block goes to the state of 10_state.md R43 from any state (70_reset_and_hazards.md R180). The model's own
three fields belong to the outside world and are kept (log entry 3). -/
def resetBlock (s : State) : State :=
  { State.reset with hostQueue := s.hostQueue, schedule := s.schedule, reads := s.reads }

/-- The sequencer's DISPATCH step ends or begins as `t`; where `PHASE` is not DISPATCH the step is not enabled and
nothing moves (10_state.md R36; log entry 7). -/
def onDispatch (s t : State) : Host.Outcome State Fault Refusal :=
  .next (if s.phase = .dispatch then t else s)

/-- A step that consumes a cipher answer ends as `t`; without an answer it is not enabled and nothing moves
(10_state.md R37, R38; 70_reset_and_hazards.md R190). -/
def onAnswer (s t : State) : Host.Outcome State Fault Refusal :=
  .next (if s.crsp.valid then t else s)

/-- Some sequencer step is enabled by the phase and the answer latch (10_state.md R36, R37, R38). -/
def sequencerEnabled (s : State) : Bool :=
  match s.phase with
  | .idle => false
  | .dispatch => true
  | .aeWait1 => s.crsp.valid
  | .aeWait2 => s.crsp.valid

end Sys2Proof.Machine
end

