-- ==== Sys2Proof/Machine/AeadEngine.lean ====
section
/-! DEFINITION. The commands of the AEAD Engine: the construction as pure functions (41_cymric_engine.md R124 to R129) and
CY2ENC and CY2DEC as the sequencer's steps (10_state.md R36, R37, R38). -/

namespace Sys2Proof.Machine

/-- The ciphertext formula `pad0(M ⊕ Y0 ⊕ Y1, DLEN)` (R125). -/
def cipherBody (M Y0 Y1 : Block) (dlen : Nat) : Block := pad0 (M ^^^ Y0 ^^^ Y1) dlen

/-- The tag pre-image `T = Y0 ⊕ pad10(M, DLEN)` (R126). -/
def tagPreimage (Y0 M : Block) (dlen : Nat) : Block := Y0 ^^^ pad10 M dlen

/-- What `T_M` takes in CY2ENC: `pad0(DIN, DLEN)` (10_state.md R37). -/
def messageOfEncryption (s : State) (dlen : Nat) : Block := pad0 s.din dlen

/-- What `T_M` takes in CY2DEC: the recovered plaintext `pad0(pad0(DIN, DLEN) ⊕ Y0 ⊕ Y1, DLEN)` (10_state.md R37,
R125). -/
def messageOfDecryption (s : State) (dlen : Nat) : Block :=
  cipherBody (pad0 s.din dlen) s.crsp.out0 s.crsp.out1 dlen

/-- The DISPATCH step of a Cymric2 command: the length check and then the dual-block request (10_state.md R36). -/
def aeadDispatch (nlen alen dlen : Byte) (s : State) : State :=
  if lengthsBad nlen alen dlen then raise .lengthError s
  else
    { s with
      creq := ⟨true, .slot0, p0 s.n s.a nlen.toNat alen.toNat dlen.toNat, p1 s.n s.a nlen.toNat alen.toNat dlen.toNat⟩
      phase := .aeWait1 }

/-- The AE_WAIT1 step, with `M` the message (10_state.md R37). -/
def aeadWait1 (M : Block) (dlen : Nat) (s : State) : State :=
  let T := tagPreimage s.crsp.out0 M dlen
  { s with
    tY0 := s.crsp.out0
    tY1 := s.crsp.out1
    crsp := { s.crsp with valid := false }
    tM := M
    tT := T
    creq := ⟨true, .slot1, T, T⟩
    phase := .aeWait2 }

/-- The AE_WAIT2 step of CY2ENC (10_state.md R38). -/
def encryptFinish (dlen : Nat) (s : State) : State :=
  complete .ok { s with dout := cipherBody s.tM s.tY0 s.tY1 dlen, tagout := s.crsp.out0 }

/-- The AE_WAIT2 step of CY2DEC: the comparison over all sixteen bytes, then the plaintext or sixteen zero bytes
(10_state.md R38, 60_exceptions.md R164). -/
def decryptFinish (s : State) : State :=
  if ctDiff s.crsp.out0 s.tagin = 0#8 then complete .ok { s with dout := s.tM }
  else raise .authFailure { s with dout := 0 }

/-- CY2ENC, in the phase the sequencer has reached (41_cymric_engine.md R130; 10_state.md R36 to R38). -/
def execCy2enc (nlen alen dlen : Byte) (s : State) : Host.Outcome State Fault Refusal :=
  match s.phase with
  | .idle => .next s
  | .dispatch => .next (aeadDispatch nlen alen dlen s)
  | .aeWait1 => onAnswer s (aeadWait1 (messageOfEncryption s dlen.toNat) dlen.toNat s)
  | .aeWait2 => onAnswer s (encryptFinish dlen.toNat s)

/-- CY2DEC, in the phase the sequencer has reached (41_cymric_engine.md R131; 10_state.md R36 to R38). -/
def execCy2dec (nlen alen dlen : Byte) (s : State) : Host.Outcome State Fault Refusal :=
  match s.phase with
  | .idle => .next s
  | .dispatch => .next (aeadDispatch nlen alen dlen s)
  | .aeWait1 => onAnswer s (aeadWait1 (messageOfDecryption s dlen.toNat) dlen.toNat s)
  | .aeWait2 => onAnswer s (decryptFinish s)

/-- What `cy2_encrypt` and `cy2_decrypt` return (R129). -/
inductive Cy2Result (α : Type) where
  | ok (v : α)
  | lengthError
  | authFailure
deriving DecidableEq, Repr

/-- `cy2_encrypt(E, n, a, m)`: the ciphertext bytes and the tag (R129). -/
def cy2Encrypt (E : Cipher) (n a m : List Byte) : Cy2Result (List Byte × Block) :=
  if 16 < m.length ∨ 15 < n.length + a.length then .lengthError
  else
    let Y0 := E .slot0 (p0Of n a m.length)
    let Y1 := E .slot0 (p1Of n a m.length)
    let C := bytes (pad0String m ^^^ Y0 ^^^ Y1) 0 m.length
    .ok (C, E .slot1 (Y0 ^^^ pad10String m))

/-- `cy2_decrypt(E, n, a, body, tag)`: the message, or the failure (R129). -/
def cy2Decrypt (E : Cipher) (n a body : List Byte) (tag : Block) : Cy2Result (List Byte) :=
  if 16 < body.length ∨ 15 < n.length + a.length then .lengthError
  else
    let Y0 := E .slot0 (p0Of n a body.length)
    let Y1 := E .slot0 (p1Of n a body.length)
    let m := bytes (pad0String body ^^^ Y0 ^^^ Y1) 0 body.length
    if ctDiff (E .slot1 (Y0 ^^^ pad10String m)) tag = 0#8 then .ok m else .authFailure

end Sys2Proof.Machine
end

