-- ==== Sys2Proof/Machine/FieldArith.lean ====
section
/-! DEFINITION. The arithmetic of the Field Unit (40_field_unit.md section 1): GF(2^128) in the GHASH orientation, and the
Karatsuba and fold datapath that computes the same product. -/

namespace Sys2Proof.Machine

/-- `poly(B)`, the coefficient integer of a block: `be128(B)` with its 128 bits reversed, so that bit `i` is the
coefficient of `x^i` (R90; the bit order is PRESUMED by the spec from the GCM standard, log entry 13). -/
def poly (B : Block) : Nat := B.reverse.toNat

/-- `unpoly(p)`, the block `B` with `poly(B) = p`, for `0 ≤ p < 2^128` (R90). -/
def unpoly (p : Nat) : Block := (BitVec.ofNat 128 p).reverse

/-- The exclusive-or of `a << i` over every `i < k` with `b[i] = 1`. -/
def clmulBits (a b : Nat) : Nat → Nat
  | 0 => 0
  | k + 1 => clmulBits a b k ^^^ (if b.testBit k then a <<< k else 0)

/-- `clmul(a, b)`, the carry-less product: the exclusive-or over every `i` with `b[i] = 1` of `a << i` (R92). -/
def clmul (a b : Nat) : Nat := clmulBits a b (b.log2 + 1)

/-- The loop of R93 for `i = 127 + k` down to `128`. -/
def polymodLoop : Nat → Nat → Nat
  | 0, p => p
  | k + 1, p => polymodLoop k (if p.testBit (128 + k) then p ^^^ (Config.reductionPoly <<< k) else p)

/-- `polymod(p)` for `p < 2^255`: the loop of R93 for `i = 254` down to `128`. -/
def polymod (p : Nat) : Nat := polymodLoop 127 p

/-- `A ⊗ B`, the product in GF(2^128) under the GHASH orientation (R93). -/
def gfMul (A B : Block) : Block := unpoly (polymod (clmul (poly A) (poly B)))

/-- `mulx_ghash(B)`, multiplication by `x` in the GHASH orientation (R97). -/
def mulxGhash (B : Block) : Block :=
  let v := be128 B
  let c := v.testBit 0
  let v := v >>> 1
  blk (if c then v ^^^ (0xE1 <<< 120) else v)

/-- The 64-bit product of the datapath, from three 32 × 32 products (R95). -/
def kmul64 (u v : Nat) : Nat :=
  let u0 := u % 2 ^ 32
  let u1 := u >>> 32
  let v0 := v % 2 ^ 32
  let v1 := v >>> 32
  let lo := clmul u0 v0
  let hi := clmul u1 v1
  let mid := clmul (u0 ^^^ u1) (v0 ^^^ v1) ^^^ lo ^^^ hi
  (hi <<< 64) ^^^ (mid <<< 32) ^^^ lo

/-- The 128-bit product of the datapath, from three 64-bit products (R95). -/
def kmul128 (a b : Nat) : Nat :=
  let a0 := a % 2 ^ 64
  let a1 := a >>> 64
  let b0 := b % 2 ^ 64
  let b1 := b >>> 64
  let lo := kmul64 a0 b0
  let hi := kmul64 a1 b1
  let mid := kmul64 (a0 ^^^ a1) (b0 ^^^ b1) ^^^ lo ^^^ hi
  (hi <<< 128) ^^^ (mid <<< 64) ^^^ lo

/-- The reduction by folding of R94. -/
def fold (p : Nat) : Nat :=
  let lo := p % 2 ^ 128
  let hi := p >>> 128
  let f := hi ^^^ (hi <<< 1) ^^^ (hi <<< 2) ^^^ (hi <<< 7)
  let z1 := lo ^^^ (f % 2 ^ 128)
  let g := f >>> 128
  z1 ^^^ g ^^^ (g <<< 1) ^^^ (g <<< 2) ^^^ (g <<< 7)

/-- The product as the datapath computes it: nine 32 × 32 products and one fold (R95). -/
def gfMulDatapath (A B : Block) : Block := unpoly (fold (kmul128 (poly A) (poly B)))

end Sys2Proof.Machine
end

