-- ==== Sys2Proof/Machine/FieldUnit.lean ====
section
/-! DEFINITION. The commands of the Field Unit (40_field_unit.md section 2): GFMAC, PVMAC, PVKEY. -/

namespace Sys2Proof.Machine

/-- The multiply-and-accumulate step in the GHASH orientation, `(Y ⊕ X) ⊗ H` (R101; the recurrence is that of
90_conflicts.md C1, log entry 12). -/
def ghashStep (Y H X : Block) : Block := gfMul (Y ^^^ X) H

/-- The step in the POLYVAL orientation, `Rev((Rev(Y) ⊕ Rev(X)) ⊗ H)` (R102). -/
def polyvalStep (Y H X : Block) : Block := rev (ghashStep (rev Y) H (rev X))

/-- What GFMAC and PVMAC share (R100): a length error above 16, nothing to absorb at 0, else the accumulator takes
`step Y H pad0(X, XLEN)`. -/
def absorb (step : Block → Block → Block → Block) (xlen : Byte) (s : State) : State :=
  if xlenTooLong xlen then raise .lengthError s
  else if xlen = 0#8 then complete .ok s
  else complete .ok { s with y := step s.y s.h (pad0 s.x xlen.toNat) }

/-- GFMAC (R101). -/
def execGfmac (xlen : Byte) (s : State) : Host.Outcome State Fault Refusal :=
  onDispatch s (absorb ghashStep xlen s)

/-- PVMAC (R102). -/
def execPvmac (xlen : Byte) (s : State) : Host.Outcome State Fault Refusal :=
  onDispatch s (absorb polyvalStep xlen s)

/-- PVKEY: `H <- mulx_ghash(Rev(H))` (R103). -/
def execPvkey (s : State) : Host.Outcome State Fault Refusal :=
  onDispatch s (complete .ok { s with h := mulxGhash (rev s.h) })

end Sys2Proof.Machine
end

