-- ==== Sys2Proof/Machine/Housekeeping.lean ====
section
/-! DEFINITION. The housekeeping command CLEAR (42_housekeeping.md R150). -/

namespace Sys2Proof.Machine

/-- The nine data registers to `0^16` (R150). -/
def clearData (s : State) : State :=
  { s with y := 0, h := 0, x := 0, n := 0, a := 0, din := 0, tagin := 0, dout := 0, tagout := 0 }

/-- CLEAR (R150). -/
def execClear (s : State) : Host.Outcome State Fault Refusal :=
  onDispatch s (complete .ok (clearData s))

end Sys2Proof.Machine
end

