-- ==== Sys2Proof/Machine/Dispatch.lean ====
section
/-! DEFINITION. The sequencer's move on a decoded command, one arm per command (10_state.md R36 to R38). -/

namespace Sys2Proof.Machine

def exec (i : Instr) (s : State) : Host.Outcome State Fault Refusal :=
  match i with
  | .clear => Sys2Proof.Machine.execClear s
  | .gfmac xlen => Sys2Proof.Machine.execGfmac xlen s
  | .pvmac xlen => Sys2Proof.Machine.execPvmac xlen s
  | .pvkey => Sys2Proof.Machine.execPvkey s
  | .cy2enc nlen alen dlen => Sys2Proof.Machine.execCy2enc nlen alen dlen s
  | .cy2dec nlen alen dlen => Sys2Proof.Machine.execCy2dec nlen alen dlen s

end Sys2Proof.Machine
end

