-- ==== Sys2Proof/Machine/Agents.lean ====
section
/-! DEFINITION. The moves of the three agents (00_scope.md R14) and which of them moves next. -/

namespace Sys2Proof.Machine

/-- The sequencer on a word that matches no row of the command table: its DISPATCH step is `complete(0xFE)`
(10_state.md R36, 60_exceptions.md R162). -/
def execIllegal (s : State) : Host.Outcome State Fault Refusal :=
  onDispatch s (raise .illegalCommand s)

/-- The sequencer's move: decode `CMD` and run the command in the phase reached (10_state.md R36, R37, R38). -/
def sequencerMove (s : State) : Host.Outcome State Fault Refusal :=
  match decode s.cmd with
  | .ok i => exec i s
  | .error _ => execIllegal s

/-- The collaborator's move (10_state.md R39): the answer to the pending request. An answer that finds `PHASE = IDLE` is
discarded (R39, 70_reset_and_hazards.md R181), and without a pending request nothing is delivered (log entry 6). -/
def collaboratorMove (E : Cipher) (s : State) : State :=
  if s.creq.valid then
    { s with
      creq := { s.creq with valid := false }
      crsp := if s.phase = .idle then s.crsp
        else ⟨true, E s.creq.ksel s.creq.in0, E s.creq.ksel s.creq.in1⟩ }
  else s

/-- `RegRead(i)` by the host, the value returned kept in `reads` (20_memory.md R51); a reserved number is refused
(93 U6). -/
def hostRead (i : RegNum) (s : State) : Host.Outcome State Fault Refusal :=
  match regRead s i with
  | some v => .next { s with reads := (i, v) :: s.reads }
  | none => .refused (.reservedRegister i)

/-- `RegWrite(i, v)` by the host (20_memory.md R52, R53); a reserved number is refused (93 U6), a value of another width
is no access of the port (R54). -/
def hostWrite (i : RegNum) (v : RegValue) (s : State) : Host.Outcome State Fault Refusal :=
  if RegNum.assigned i then
    if v.fits i then .next (regWrite s i v) else .fault (.widthMismatch i)
  else .refused (.reservedRegister i)

/-- One read of `wait` (30_encoding.md R80): STATUS is read, and while BUSY reads 1 the line stays at the head of the
host's queue. -/
def hostWait (s : State) : State :=
  { s with
    reads := (1, .word s.status.word) :: s.reads
    hostQueue := if s.status.busy then .wait :: s.hostQueue else s.hostQueue }

/-- The host's action `act`, in a state whose queue no longer holds it. -/
def hostAction (act : HostAction) (s : State) : Host.Outcome State Fault Refusal :=
  match act with
  | .read i => hostRead i s
  | .write i v => hostWrite i v s
  | .wait => .next (hostWait s)
  | .reset => .next (resetBlock s)

/-- The host's move: the oldest action of its queue, or nothing where the queue is empty (20_memory.md R50, R62). -/
def hostMove (s : State) : Host.Outcome State Fault Refusal :=
  match s.hostQueue with
  | [] => .next s
  | act :: rest => hostAction act { s with hostQueue := rest }

/-- The host has nothing to do but wait: no action is left, or its next line is `wait` (30_encoding.md R80). -/
def hostWaits (s : State) : Bool :=
  match s.hostQueue with
  | [] => true
  | .wait :: _ => true
  | .read _ :: _ => false
  | .write _ _ :: _ => false
  | .reset :: _ => false

/-- The order where `schedule` says nothing: the host until it waits, then an enabled sequencer, then a pending cipher
request, then the host. It is the model's choice among the interleavings of R14 and 20_memory.md R62 (DESIGN CHOICE,
log entry 2). The choice settles one point those rules leave open: a script's access between a command line and the next
`wait` comes before the command's steps, so that a write there finds BUSY = 1 and is dropped, as 30_encoding.md R80 says.
Under a `schedule` that lets the command finish first such a write lands and OVR stays 0. The order is fair in the sense of
R190: a finite queue ends or comes to its `wait`. -/
def defaultAgent (s : State) : Agent :=
  if !hostWaits s then .host
  else if sequencerEnabled s then .sequencer
  else if s.creq.valid then .collaborator
  else .host

/-- The agent that moves next: the head of `schedule`, else the default order. -/
def nextAgent (s : State) : Agent :=
  match s.schedule with
  | [] => defaultAgent s
  | g :: _ => g

/-- `schedule` without the entry being used. -/
def popSchedule (s : State) : State := { s with schedule := s.schedule.tail }

/-- The move of one agent. -/
def agentMove (E : Cipher) (g : Agent) (s : State) : Host.Outcome State Fault Refusal :=
  match g with
  | .host => hostMove s
  | .sequencer => sequencerMove s
  | .collaborator => .next (collaboratorMove E s)

end Sys2Proof.Machine
end

