-- ==== Sys2Proof/Machine/Step.lean ====
section
/-! DEFINITION. One step of the machine: one atomic step of one agent (00_scope.md R14). -/

namespace Sys2Proof.Machine

/-- One step under the cipher `E`. -/
def stepWith (E : Cipher) (s : State) : Host.Outcome State Fault Refusal :=
  agentMove E (nextAgent s) (popSchedule s)

/-- One step of the machine, under the uninterpreted cipher of the configuration. -/
def step (s : State) : Host.Outcome State Fault Refusal := stepWith Config.E s

/-- `s` with the command word `w` accepted (10_state.md R35) and the sequencer next to move, so that the next step
decodes it and runs it (log entry 4). The command word has 32 bits, whatever `nbits` the table gives the row. -/
def State.withFetchWord (s : State) (_nbits w : Nat) : State :=
  { accept (BitVec.ofNat 32 w) s with schedule := .sequencer :: s.schedule }

end Sys2Proof.Machine
end

