-- ==== Sys2Proof/Machine/HostScript.lean ====
section
/-! DEFINITION. The host script notation (30_encoding.md R79), the expansions of its pseudo-lines (R80) and the end of
a run (00_scope.md R18). -/

namespace Sys2Proof.Machine

/-- `wr CMD, w`. -/
def issue (w : Word) : HostAction := .write 0 (.word w)

/-- The host actions of one line (R79, R80). -/
def expandLine : HostLine → List HostAction
  | .wr i v => [.write i v]
  | .rd i => [.read i]
  | .command i => [issue (encode i)]
  | .cmd w => [issue w]
  | .wait => [.wait]
  | .ack => [.write 1 (.word 0x00000006#32)]
  | .absorbG b xlen => [.write 5 (.block b), issue (encode (.gfmac xlen)), .wait]
  | .absorbP b xlen => [.write 5 (.block b), issue (encode (.pvmac xlen)), .wait]

/-- The host actions of a script, line after line. -/
def expandScript (l : List HostLine) : List HostAction := l.flatMap expandLine

/-- The end of a run of a host script: no access is left and BUSY = 0 (00_scope.md R18). -/
def scriptEnded (s : State) : Bool := s.hostQueue.isEmpty && !s.status.busy

/-- A script given to the host, after what it already has to do. -/
def loadScript (l : List HostLine) (s : State) : State :=
  { s with hostQueue := s.hostQueue ++ expandScript l }

end Sys2Proof.Machine
end

