-- ==== Sys2Proof/Safety.lean ====
section
/-! DEFINITION. The terms in which claims about the machine are stated: runs, the invariant of a good state, what the host
can see, and what the outside can see of the order of steps. -/

namespace Sys2Proof.Machine

/-- `k` steps under the cipher `E`, stopping at the first fault or refusal. -/
def runWith (E : Cipher) : Nat → State → Host.Outcome State Fault Refusal
  | 0, s => .next s
  | k + 1, s =>
    match stepWith E s with
    | .next t => runWith E k t
    | .fault r => .fault r
    | .refused r => .refused r

/-- The run of a host script: steps under the cipher `E` until the script has ended, at most `fuel` of them
(00_scope.md R18). -/
def runToEnd (E : Cipher) : Nat → State → Host.Outcome State Fault Refusal
  | 0, s => .next s
  | fuel + 1, s =>
    if scriptEnded s then .next s
    else match stepWith E s with
      | .next t => runToEnd E fuel t
      | .fault r => .fault r
      | .refused r => .refused r

/-- The five moves of a Cymric2 command come next: the schedule names them, or it is empty and the host waits, in which case
the default order makes them (log entry 2). -/
def CommandMovesNext (s : State) : Prop :=
  (s.schedule = [] ∧ hostWaits s = true) ∨
    ∃ later, s.schedule = [.sequencer, .collaborator, .sequencer, .collaborator, .sequencer] ++ later

/-- The hidden state of 10_state.md R34 is cleared. -/
structure HiddenClear (s : State) : Prop where
  tY0 : s.tY0 = 0
  tY1 : s.tY1 = 0
  tM : s.tM = 0
  tT : s.tT = 0
  creq : s.creq = .cleared
  crsp : s.crsp = .cleared

/-- The word is a Cymric2 command with these length immediates. -/
def IsCymric2 (w : Word) (nlen alen dlen : Byte) : Prop :=
  decode w = .ok (.cy2enc nlen alen dlen) ∨ decode w = .ok (.cy2dec nlen alen dlen)

/-- `P0` of the command in flight, from the registers `N` and `A` (41_cymric_engine.md R122). -/
def blockP0 (s : State) (nlen alen dlen : Byte) : Block := p0 s.n s.a nlen.toNat alen.toNat dlen.toNat

/-- `P1` of the command in flight (R122). -/
def blockP1 (s : State) (nlen alen dlen : Byte) : Block := p1 s.n s.a nlen.toNat alen.toNat dlen.toNat

/-- AE_WAIT1 (10_state.md R33, R36, R39): the temporaries are still clear, and the dual-block request is either pending
or answered with the cipher's two outputs. -/
structure FirstCall (E : Cipher) (s : State) (nlen alen dlen : Byte) : Prop where
  tY0 : s.tY0 = 0
  tY1 : s.tY1 = 0
  tM : s.tM = 0
  tT : s.tT = 0
  port :
    (s.creq = ⟨true, .slot0, blockP0 s nlen alen dlen, blockP1 s nlen alen dlen⟩ ∧ s.crsp = .cleared) ∨
    (s.creq = ⟨false, .slot0, blockP0 s nlen alen dlen, blockP1 s nlen alen dlen⟩ ∧
      s.crsp = ⟨true, E .slot0 (blockP0 s nlen alen dlen), E .slot0 (blockP1 s nlen alen dlen)⟩)

/-- AE_WAIT2 (10_state.md R33, R37, R39): the temporaries hold the first call's outputs, the message and the tag
pre-image, and the tag request is either pending or answered. -/
structure TagCall (E : Cipher) (s : State) (nlen alen dlen : Byte) : Prop where
  tY0 : s.tY0 = E .slot0 (blockP0 s nlen alen dlen)
  tY1 : s.tY1 = E .slot0 (blockP1 s nlen alen dlen)
  encryption : decode s.cmd = .ok (.cy2enc nlen alen dlen) → s.tM = pad0 s.din dlen.toNat
  decryption : decode s.cmd = .ok (.cy2dec nlen alen dlen) →
    s.tM = cipherBody (pad0 s.din dlen.toNat) s.tY0 s.tY1 dlen.toNat
  tT : s.tT = tagPreimage s.tY0 s.tM dlen.toNat
  port :
    (s.creq = ⟨true, .slot1, s.tT, s.tT⟩ ∧ s.crsp.valid = false) ∨
    (s.creq = ⟨false, .slot1, s.tT, s.tT⟩ ∧ s.crsp = ⟨true, E .slot1 s.tT, E .slot1 s.tT⟩)

/-- The invariant of the machine under the cipher `E`. -/
structure Inv (E : Cipher) (s : State) : Prop where
  /-- `PHASE = IDLE` if and only if `STATUS.BUSY = 0` (10_state.md R33). -/
  idle_iff : s.phase = .idle ↔ s.status.busy = false
  /-- While busy, `DONE = 0` and `RC = 0x00` (10_state.md R22, 70_reset_and_hazards.md R186). -/
  busy_flags : s.status.busy = true → s.status.done = false ∧ s.status.rc = 0x00#8
  /-- No other value of `RC` ever appears (60_exceptions.md R160). -/
  rc_legal : ∃ rc : ResultCode, s.status.rc = rc.byte
  /-- No background state survives a command (10_state.md R34). -/
  idle_clear : s.phase = .idle → HiddenClear s
  /-- A command not yet looked at has made nothing (10_state.md R35). -/
  dispatch_clear : s.phase = .dispatch → HiddenClear s
  /-- Only a Cymric2 command with good lengths waits for its first answer (10_state.md R36). -/
  first_call : s.phase = .aeWait1 → ∃ nlen alen dlen, IsCymric2 s.cmd nlen alen dlen ∧
    lengthsBad nlen alen dlen = false ∧ FirstCall E s nlen alen dlen
  /-- Only a Cymric2 command with good lengths waits for its tag (10_state.md R37). -/
  tag_call : s.phase = .aeWait2 → ∃ nlen alen dlen, IsCymric2 s.cmd nlen alen dlen ∧
    lengthsBad nlen alen dlen = false ∧ TagCall E s nlen alen dlen

/-- What the host can read, the whole of 10_state.md R20. -/
structure HostView where
  cmd : Word
  status : Word
  ctrl : Word
  y : Block
  h : Block
  x : Block
  n : Block
  a : Block
  din : Block
  tagin : Block
  dout : Block
  tagout : Block
deriving DecidableEq, Repr

/-- The registers as the host reads them. -/
def hostView (s : State) : HostView where
  cmd := s.cmd
  status := s.status.word
  ctrl := ctrlWord s.ie
  y := s.y
  h := s.h
  x := s.x
  n := s.n
  a := s.a
  din := s.din
  tagin := s.tagin
  dout := s.dout
  tagout := s.tagout

/-- What can be seen of the order of steps (70_reset_and_hazards.md R189): the phase, the command word, BUSY, which
requests and answers stand on the cipher port and for which key slot, and what the outside world is about to do.
No data register, no answer and no temporary is in it. -/
structure StepView where
  phase : Phase
  cmd : Word
  busy : Bool
  reqValid : Bool
  reqSlot : KeySlot
  ansValid : Bool
  hostQueue : List HostAction
  schedule : List Agent
deriving DecidableEq, Repr

/-- The step view of a state. -/
def stepView (s : State) : StepView where
  phase := s.phase
  cmd := s.cmd
  busy := s.status.busy
  reqValid := s.creq.valid
  reqSlot := s.creq.ksel
  ansValid := s.crsp.valid
  hostQueue := s.hostQueue
  schedule := s.schedule

/-- Two states hold the same data registers, `CMD` and `CTRL`. -/
structure SameRegisters (s t : State) : Prop where
  cmd : t.cmd = s.cmd
  ie : t.ie = s.ie
  y : t.y = s.y
  h : t.h = s.h
  x : t.x = s.x
  n : t.n = s.n
  a : t.a = s.a
  din : t.din = s.din
  tagin : t.tagin = s.tagin
  dout : t.dout = s.dout
  tagout : t.tagout = s.tagout

/-- The outside world's pending actions are the same in two states. -/
structure SameOutside (s t : State) : Prop where
  hostQueue : t.hostQueue = s.hostQueue
  schedule : t.schedule = s.schedule
  reads : t.reads = s.reads

end Sys2Proof.Machine
end

