-- ==== Sys2Proof/Certificates/Slice0/Obligations.lean ====
section
/-! DEFINITION. The statements about the model, for the provers. OBLIGATIONS.json lists them in the same order. -/

open Sys2Proof Sys2Proof.Machine

/-! ### Encoding -/

/-- Decoding the encoded word of any command, with every operand at every value, gives the command back
(30_encoding.md R71, R73, R76). -/
def Obligations.DecodeEncodeRoundTrip : Prop :=
  ∀ i : Instr, i.wellFormed = true → decode (encode i) = .ok i

/-- A legal word is the encoding of the command it decodes to, so each command has exactly one word (R71, R76). -/
def Obligations.EncodeDecodeSameWord : Prop :=
  ∀ (w : Word) (i : Instr), decode w = .ok i → encode i = w

/-- R75: a word is the command of a row if and only if `(w & mask) == match`, the rows are pairwise exclusive, the operands
are the fields of the word, and the four examples of the rule. -/
def Obligations.CommandTableDecides : Prop :=
  (∀ (w : Word) (i : Instr), w &&& i.mask = i.matchWord ↔ ∃ j, decode w = .ok j ∧ j.opcode = i.opcode) ∧
  (∀ (w : Word) (i j : Instr), w &&& i.mask = i.matchWord → w &&& j.mask = j.matchWord → i.opcode = j.opcode) ∧
  (∀ (w : Word) (xlen : Byte), decode w = .ok (.gfmac xlen) ∨ decode w = .ok (.pvmac xlen) →
    xlen = w.extractLsb' 8 8) ∧
  (∀ (w : Word) (nlen alen dlen : Byte),
    decode w = .ok (.cy2enc nlen alen dlen) ∨ decode w = .ok (.cy2dec nlen alen dlen) →
    nlen = w.extractLsb' 8 8 ∧ alen = w.extractLsb' 16 8 ∧ dlen = w.extractLsb' 24 8) ∧
  decode 0x00001010#32 = .ok (.gfmac 16) ∧ decode 0x00000311#32 = .ok (.pvmac 3) ∧
  decode 0x08030C20#32 = .ok (.cy2enc 12 3 8) ∧ decode 0x08030C21#32 = .ok (.cy2dec 12 3 8)

/-- Words written out from the spec's encodings decode to what they stand for (95_test_vectors.md section 5). -/
def Obligations.SampleWordsDecode : Prop :=
  decode 0x00000001#32 = .ok .clear ∧ decode 0x0000FF10#32 = .ok (.gfmac 255) ∧
  decode 0x00000311#32 = .ok (.pvmac 3) ∧ decode 0x00000012#32 = .ok .pvkey ∧
  decode 0x08030C20#32 = .ok (.cy2enc 12 3 8) ∧ decode 0x08030C21#32 = .ok (.cy2dec 12 3 8) ∧
  decode 0x00000101#32 = .error (.mustBeZero 0x01#8) ∧ decode 0x00010010#32 = .error (.mustBeZero 0x10#8) ∧
  decode 0x00000000#32 = .error (.unassignedOpcode 0x00#8) ∧ decode 0x08030C22#32 = .error (.reservedForCymric1 0x22#8)

/-- R162: a word is illegal exactly when its opcode is unassigned (0x00, 0x22 and 0x23 among them) or a must-be-zero bit of
a Z- or F-format word is set, and the DISPATCH step then is `complete(0xFE)`: no data register is written and no cipher
request is made. -/
def Obligations.IllegalWordOutcome : Prop :=
  (∀ w : Word, (∃ e, decode w = .error e) ↔
    (opcodeField w ∉ [0x01#8, 0x10#8, 0x11#8, 0x12#8, 0x20#8, 0x21#8] ∨
      (opcodeField w ∈ [0x01#8, 0x12#8] ∧ w.extractLsb' 8 24 ≠ 0#24) ∨
      (opcodeField w ∈ [0x10#8, 0x11#8] ∧ w.extractLsb' 16 16 ≠ 0#16))) ∧
  (∀ (s : State) (e : IllegalWord), decode s.cmd = .error e → s.phase = .dispatch →
    sequencerMove s = .next (complete .illegalCommand s) ∧ ResultCode.illegalCommand.byte = 0xFE#8 ∧
    SameRegisters s (complete .illegalCommand s) ∧ (complete .illegalCommand s).creq.valid = false)

/-- The lines of a host script become the accesses of R79, the command lines a write to CMD of the word the rule's formula
gives, and the pseudo-lines expand into what R80 writes. Two clauses are the model's choice: R80 writes `wait` as repeated
reads of STATUS, which the model holds as the one host action `.wait` (log entry 16; `absorb.g` and `absorb.p` end in it),
and `loadScript` puts the accesses of the lines, in order, after what the host already has to do in `hostQueue`, the
model's own field (log entry 3). -/
def Obligations.HostScriptLinesAssemble : Prop :=
  expandLine (.command .clear) = [.write 0 (.word 0x00000001#32)] ∧
  (∀ xlen : Byte,
    expandLine (.command (.gfmac xlen)) = [.write 0 (.word (0x10#32 ||| (xlen.setWidth 32 <<< 8)))] ∧
    expandLine (.command (.pvmac xlen)) = [.write 0 (.word (0x11#32 ||| (xlen.setWidth 32 <<< 8)))]) ∧
  expandLine (.command .pvkey) = [.write 0 (.word 0x00000012#32)] ∧
  (∀ nlen alen dlen : Byte,
    expandLine (.command (.cy2enc nlen alen dlen)) = [.write 0 (.word
      (0x20#32 ||| (nlen.setWidth 32 <<< 8) ||| (alen.setWidth 32 <<< 16) ||| (dlen.setWidth 32 <<< 24)))] ∧
    expandLine (.command (.cy2dec nlen alen dlen)) = [.write 0 (.word
      (0x21#32 ||| (nlen.setWidth 32 <<< 8) ||| (alen.setWidth 32 <<< 16) ||| (dlen.setWidth 32 <<< 24)))]) ∧
  (∀ w : Word, expandLine (.cmd w) = [.write 0 (.word w)]) ∧
  (∀ (i : RegNum) (v : RegValue), expandLine (.wr i v) = [.write i v] ∧ expandLine (.rd i) = [.read i]) ∧
  expandLine .wait = [.wait] ∧ expandLine .ack = [.write 1 (.word 0x00000006#32)] ∧
  (∀ (b : Block) (xlen : Byte),
    expandLine (.absorbG b xlen) =
      [.write 5 (.block b), .write 0 (.word (0x10#32 ||| (xlen.setWidth 32 <<< 8))), .wait] ∧
    expandLine (.absorbP b xlen) =
      [.write 5 (.block b), .write 0 (.word (0x11#32 ||| (xlen.setWidth 32 <<< 8))), .wait]) ∧
  (∀ (line : HostLine) (rest : List HostLine), expandScript [] = [] ∧
    expandScript (line :: rest) = expandLine line ++ expandScript rest) ∧
  (∀ (l : List HostLine) (s : State), loadScript l s = { s with hostQueue := s.hostQueue ++ expandScript l })

/-! ### The step, the register port, reset -/

/-- When the sequencer moves next and `CMD` decodes to `i`, a step is the meaning of `i` in the state whose schedule is used
up by one entry; and a word placed by `withFetchWord` is run by the very next step. -/
def Obligations.StepRunsDecodedCommand : Prop :=
  (∀ (E : Cipher) (s : State) (i : Instr), decode s.cmd = .ok i → nextAgent s = .sequencer →
    stepWith E s = exec i { s with schedule := s.schedule.tail }) ∧
  (∀ s : State, step s = stepWith Config.E s) ∧
  (∀ (s : State) (i : Instr) (nbits w : Nat), decodeTableWord nbits w = some i →
    step (s.withFetchWord nbits w) = exec i { s with
      cmd := BitVec.ofNat 32 w, status := ⟨true, false, s.status.ovr, 0x00#8⟩, phase := .dispatch })

/-- A step of the host is the oldest action of its queue, a step of the collaborator is its move, and a step of the sequencer
is its move whether the word is legal or not, each from the state whose schedule is used up by one entry; with no action
left the host's step changes nothing else (00_scope.md R14, R18; 20_memory.md R50, R62). The queue and the schedule are
the model's own (log entries 2 and 3). -/
def Obligations.EachAgentsStep : Prop :=
  ∀ (E : Cipher) (s : State),
    (nextAgent s = .sequencer → stepWith E s = sequencerMove { s with schedule := s.schedule.tail }) ∧
    (nextAgent s = .collaborator → stepWith E s = .next (collaboratorMove E { s with schedule := s.schedule.tail })) ∧
    (∀ act rest, nextAgent s = .host → s.hostQueue = act :: rest →
      stepWith E s = hostAction act { s with hostQueue := rest, schedule := s.schedule.tail }) ∧
    (nextAgent s = .host → s.hostQueue = [] → stepWith E s = .next { s with schedule := s.schedule.tail })

/-- R53: a host write to any register 0 to 11 while busy sets OVR and does nothing else: the value is lost. -/
def Obligations.BusyWriteDropped : Prop :=
  ∀ (s : State) (i : RegNum) (v : RegValue), i.toNat < 12 → (HostAction.write i v).wellFormed = true →
    s.status.busy = true → hostWrite i v s = .next { s with status := { s.status with ovr := true } }

/-- What a host write does to each register while not busy, the accept step R35 among them (any word is accepted, legal
or not; 20_memory.md R52). Numbers 12 to 15 are reserved and refused, which is the model's stop (93 U6, log entry 5). -/
def Obligations.IdleWriteEffects : Prop :=
  ∀ s : State, s.status.busy = false →
    (∀ w : Word,
      hostWrite 0 (.word w) s = .next { s with
        cmd := w, status := ⟨true, false, s.status.ovr, 0x00#8⟩, phase := .dispatch } ∧
      hostWrite 1 (.word w) s = .next { s with
        status := { s.status with done := s.status.done && !w.getLsbD 1, ovr := s.status.ovr && !w.getLsbD 2 } } ∧
      hostWrite 2 (.word w) s = .next { s with ie := w.getLsbD 0 }) ∧
    (∀ b : Block,
      hostWrite 3 (.block b) s = .next { s with y := b } ∧
      hostWrite 4 (.block b) s = .next { s with h := b } ∧
      hostWrite 5 (.block b) s = .next { s with x := b } ∧
      hostWrite 6 (.block b) s = .next { s with n := b } ∧
      hostWrite 7 (.block b) s = .next { s with a := b } ∧
      hostWrite 8 (.block b) s = .next { s with din := b } ∧
      hostWrite 9 (.block b) s = .next { s with tagin := b } ∧
      hostWrite 10 (.block b) s = .next s ∧
      hostWrite 11 (.block b) s = .next s) ∧
    (∀ (i : RegNum) (v : RegValue), 12 ≤ i.toNat → hostWrite i v s = .refused (.reservedRegister i))

/-- A host read returns the register at its full width, busy or not, and changes nothing but the host's record of what it
read (20_memory.md R51). -/
def Obligations.ReadsReturnRegisters : Prop :=
  ∀ s : State,
    (∀ (i : RegNum) (v : RegValue),
      ((i = 0 ∧ v = .word s.cmd) ∨ (i = 1 ∧ v = .word s.status.word) ∨ (i = 2 ∧ v = .word (if s.ie then 1 else 0)) ∨
        (i = 3 ∧ v = .block s.y) ∨ (i = 4 ∧ v = .block s.h) ∨ (i = 5 ∧ v = .block s.x) ∨ (i = 6 ∧ v = .block s.n) ∨
        (i = 7 ∧ v = .block s.a) ∨ (i = 8 ∧ v = .block s.din) ∨ (i = 9 ∧ v = .block s.tagin) ∨
        (i = 10 ∧ v = .block s.dout) ∨ (i = 11 ∧ v = .block s.tagout)) →
      hostRead i s = .next { s with reads := (i, v) :: s.reads })

/-- The layout of the STATUS word: BUSY, DONE, OVR in bits 0, 1, 2, RC in bits 15:8, and the reserved bits read 0
(10_state.md R22). -/
def Obligations.StatusWordLayout : Prop :=
  ∀ st : Status,
    st.word.getLsbD 0 = st.busy ∧ st.word.getLsbD 1 = st.done ∧ st.word.getLsbD 2 = st.ovr ∧
    st.word.extractLsb' 8 8 = st.rc ∧ st.word.extractLsb' 3 5 = 0#5 ∧ st.word.extractLsb' 16 16 = 0#16

/-- R168: `irq = STATUS.DONE & CTRL.IE`; every completion raises it when enabled and records DONE when masked; the acceptance
of a command, a write of 1 to STATUS bit 1, a write of `IE = 0` and reset clear it. -/
def Obligations.InterruptFollowsDone : Prop :=
  (∀ s : State, irq s = (s.status.done && s.ie)) ∧
  (∀ (rc : ResultCode) (s : State), irq (complete rc s) = s.ie ∧ (complete rc s).status.done = true) ∧
  (∀ (w : Word) (s : State), irq (accept w s) = false) ∧
  (∀ (w : Word) (s : State), s.status.busy = false → w.getLsbD 1 = true →
    irq (regWrite s 1 (.word w)) = false) ∧
  (∀ (w : Word) (s : State), s.status.busy = false → w.getLsbD 0 = false →
    irq (regWrite s 2 (.word w)) = false) ∧
  (∀ s : State, irq (resetBlock s) = false)

/-- Register numbers 12 to 15 are refused (93 U6), and a value of the other width is no access of the port
(20_memory.md R54). The model's stops: log entry 5. -/
def Obligations.UnknownAccessStops : Prop :=
  ∀ (s : State) (i : RegNum),
    (12 ≤ i.toNat → hostRead i s = .refused (.reservedRegister i) ∧
      ∀ v, hostWrite i v s = .refused (.reservedRegister i)) ∧
    (∀ b : Block, i.toNat < 3 → hostWrite i (.block b) s = .fault (.widthMismatch i)) ∧
    (∀ w : Word, 3 ≤ i.toNat → i.toNat < 12 → hostWrite i (.word w) s = .fault (.widthMismatch i))

/-- R43: every register and every hidden variable after reset, and the interrupt line. -/
def Obligations.ResetState : Prop :=
  State.reset.cmd = 0 ∧ State.reset.status = ⟨false, false, false, 0x00#8⟩ ∧ State.reset.status.word = 0 ∧
  State.reset.ie = false ∧ ctrlWord State.reset.ie = 0 ∧ irq State.reset = false ∧
  State.reset.y = 0 ∧ State.reset.h = 0 ∧ State.reset.x = 0 ∧ State.reset.n = 0 ∧ State.reset.a = 0 ∧
  State.reset.din = 0 ∧ State.reset.tagin = 0 ∧ State.reset.dout = 0 ∧ State.reset.tagout = 0 ∧
  State.reset.phase = .idle ∧ State.reset.tY0 = 0 ∧ State.reset.tY1 = 0 ∧ State.reset.tM = 0 ∧ State.reset.tT = 0 ∧
  State.reset.creq.valid = false ∧ State.reset.crsp.valid = false

/-- The host's reset action takes the block to the reset state from any state; what the host still has to do and what it
has read are not the block's and stay (70_reset_and_hazards.md R180; log entry 3). -/
def Obligations.ResetFromAnyState : Prop :=
  ∀ (E : Cipher) (s : State) (rest : List HostAction), nextAgent s = .host → s.hostQueue = .reset :: rest →
    stepWith E s = .next { State.reset with hostQueue := rest, schedule := s.schedule.tail, reads := s.reads }

/-- One read of the pseudo-line `wait`: STATUS is read, and the line is done when BUSY reads 0. And a script that writes
registers between a command line and the next `wait` has those writes dropped: with no schedule imposed they come before
the command's steps and leave nothing but OVR (30_encoding.md R80; log entries 2 and 16). -/
def Obligations.WaitReadsStatus : Prop :=
  (∀ (E : Cipher) (s : State) (rest : List HostAction), nextAgent s = .host → s.hostQueue = .wait :: rest →
    (s.status.busy = true → stepWith E s = .next { s with
      reads := (1, .word s.status.word) :: s.reads, schedule := s.schedule.tail }) ∧
    (s.status.busy = false → stepWith E s = .next { s with
      reads := (1, .word s.status.word) :: s.reads, hostQueue := rest, schedule := s.schedule.tail })) ∧
  (∀ (E : Cipher) (s : State) (w : Word) (writes : List (RegNum × RegValue)) (rest : List HostAction),
    s.schedule = [] → s.status.busy = false →
    (∀ p ∈ writes, (HostAction.write p.1 p.2).wellFormed = true) →
    s.hostQueue = .write 0 (.word w) :: (writes.map fun p => .write p.1 p.2) ++ .wait :: rest →
    runWith E (1 + writes.length) s = .next { s with
      cmd := w, phase := .dispatch, hostQueue := .wait :: rest,
      status := ⟨true, false, s.status.ovr || !writes.isEmpty, 0x00#8⟩ })

/-- The collaborator's step on a pending request (10_state.md R39); each output depends on its own input alone. Where
`PHASE = IDLE` the answer is discarded, and that this clears `CREQ.valid` and leaves the whole of `CRSP` as it is is the
model's reading of the word (R181 says only that `CRSP.valid` stays 0; log entry 6). That the blocks and the key slot of
the answered request stay is the model's reading too (log entry 9). -/
def Obligations.CollaboratorAnswers : Prop :=
  ∀ (E : Cipher) (s : State), s.creq.valid = true →
    (s.phase ≠ .idle → collaboratorMove E s = { s with
      crsp := ⟨true, E s.creq.ksel s.creq.in0, E s.creq.ksel s.creq.in1⟩,
      creq := ⟨false, s.creq.ksel, s.creq.in0, s.creq.in1⟩ }) ∧
    (s.phase = .idle → collaboratorMove E s = { s with creq := ⟨false, s.creq.ksel, s.creq.in0, s.creq.in1⟩ })

/-! ### Completion -/

/-- The whole effect of `complete(rc)`, which `raise` shares (60_exceptions.md R163). That the cleared blocks of request and
answer are zero is the model's reading of "cleared" (log entry 9); what the key-slot bit of the cleared request holds is
left out. -/
def Obligations.CompletionEffect : Prop :=
  ∀ (rc : ResultCode) (s : State),
    complete rc s = { s with
      status := ⟨false, true, s.status.ovr, rc.byte⟩, phase := .idle, tY0 := 0, tY1 := 0, tM := 0, tT := 0,
      creq := ⟨false, (complete rc s).creq.ksel, 0, 0⟩, crsp := ⟨false, 0, 0⟩ } ∧
    raise rc s = complete rc s

/-- The four result codes and their signed readings (60_exceptions.md R160). -/
def Obligations.ResultCodeBytes : Prop :=
  (ResultCode.ok.byte = 0x00#8 ∧ rcSigned ResultCode.ok.byte = 0) ∧
  (ResultCode.lengthError.byte = 0xFF#8 ∧ rcSigned ResultCode.lengthError.byte = -1) ∧
  (ResultCode.authFailure.byte = 0x01#8 ∧ rcSigned ResultCode.authFailure.byte = 1) ∧
  (ResultCode.illegalCommand.byte = 0xFE#8 ∧ rcSigned ResultCode.illegalCommand.byte = -2)

/-! ### The commands -/

/-- CLEAR completes in its DISPATCH step with the nine data registers zero, RC 0x00, and CMD, CTRL and OVR as they were
(42_housekeeping.md R150). -/
def Obligations.ClearCompletes : Prop :=
  ∀ s : State, s.phase = .dispatch →
    exec .clear s = .next { s with
      y := 0, h := 0, x := 0, n := 0, a := 0, din := 0, tagin := 0, dout := 0, tagout := 0,
      status := ⟨false, true, s.status.ovr, 0x00#8⟩, phase := .idle, tY0 := 0, tY1 := 0, tM := 0, tT := 0,
      creq := ⟨false, .slot0, 0, 0⟩, crsp := ⟨false, 0, 0⟩ }

/-- GFMAC in its DISPATCH step: a length error above 16, nothing absorbed at 0, else the accumulator that the Karatsuba and
fold datapath computes from `Y ⊕ pad0(X, XLEN)` and `H` (40_field_unit.md R100, R101, R95). -/
def Obligations.GfmacCompletes : Prop :=
  ∀ (s : State) (xlen : Byte), s.phase = .dispatch →
    exec (.gfmac xlen) s =
      if 16 < xlen.toNat then .next (complete .lengthError s)
      else if xlen.toNat = 0 then .next (complete .ok s)
      else .next { complete .ok s with
        y := unpoly (fold (kmul128 (poly (s.y ^^^ blockOf (bytes s.x 0 xlen.toNat ++ zeros (16 - xlen.toNat)))) (poly s.h))) }

/-- PVMAC in its DISPATCH step: a length error above 16, nothing absorbed at 0, else the byte reversal of what GFMAC computes
from the reversed accumulator and the reversed padded block (40_field_unit.md R96, R102). -/
def Obligations.PvmacCompletes : Prop :=
  ∀ (s : State) (xlen : Byte), s.phase = .dispatch →
    (16 < xlen.toNat → exec (.pvmac xlen) s = .next (complete .lengthError s)) ∧
    (xlen.toNat = 0 → exec (.pvmac xlen) s = .next (complete .ok s)) ∧
    (0 < xlen.toNat → xlen.toNat ≤ 16 →
      ∃ t, exec (.gfmac 16) { s with y := rev s.y, x := rev (pad0 s.x xlen.toNat) } = .next t ∧
        exec (.pvmac xlen) s = .next { t with y := rev t.y, x := s.x })

/-- PVKEY in its DISPATCH step: `H` becomes `Rev(H)` times the polynomial `x` (40_field_unit.md R97, R103). -/
def Obligations.PvkeyCompletes : Prop :=
  ∀ s : State, s.phase = .dispatch →
    exec .pvkey s = .next { complete .ok s with
      h := gfMul (rev s.h) 0x40000000000000000000000000000000#128 }

/-- The DISPATCH step of CY2ENC and CY2DEC: a length error without a request, or the dual-block request under key slot 0
and nothing else (10_state.md R36). -/
def Obligations.Cymric2DispatchStep : Prop :=
  ∀ (s : State) (nlen alen dlen : Byte) (i : Instr),
    i = .cy2enc nlen alen dlen ∨ i = .cy2dec nlen alen dlen → s.phase = .dispatch →
    (16 < dlen.toNat ∨ 15 < nlen.toNat + alen.toNat → exec i s = .next (complete .lengthError s)) ∧
    (dlen.toNat ≤ 16 → nlen.toNat + alen.toNat ≤ 15 → exec i s = .next { s with
      creq := ⟨true, .slot0, blockP0 s nlen alen dlen, blockP1 s nlen alen dlen⟩, phase := .aeWait1 })

/-- The AE_WAIT1 step of both Cymric2 commands (10_state.md R37). That the blocks of the consumed answer stay while its valid
bit is cleared is the model's reading (log entry 9). -/
def Obligations.Cymric2FirstAnswerStep : Prop :=
  ∀ (s : State) (nlen alen dlen : Byte), s.phase = .aeWait1 → s.crsp.valid = true →
    (exec (.cy2enc nlen alen dlen) s =
      let M := pad0 s.din dlen.toNat
      let T := s.crsp.out0 ^^^ pad10 M dlen.toNat
      .next { s with
        tY0 := s.crsp.out0, tY1 := s.crsp.out1, crsp := ⟨false, s.crsp.out0, s.crsp.out1⟩, tM := M, tT := T,
        creq := ⟨true, .slot1, T, T⟩, phase := .aeWait2 }) ∧
    (exec (.cy2dec nlen alen dlen) s =
      let M := pad0 (pad0 s.din dlen.toNat ^^^ s.crsp.out0 ^^^ s.crsp.out1) dlen.toNat
      let T := s.crsp.out0 ^^^ pad10 M dlen.toNat
      .next { s with
        tY0 := s.crsp.out0, tY1 := s.crsp.out1, crsp := ⟨false, s.crsp.out0, s.crsp.out1⟩, tM := M, tT := T,
        creq := ⟨true, .slot1, T, T⟩, phase := .aeWait2 })

/-- R38: the AE_WAIT2 step of both Cymric2 commands, in which they complete. `ctDiff` is the comparison of all sixteen
bytes. -/
def Obligations.Cymric2FinishStep : Prop :=
  ∀ (s : State) (nlen alen dlen : Byte), s.phase = .aeWait2 → s.crsp.valid = true →
    (exec (.cy2enc nlen alen dlen) s = .next { complete .ok s with
      dout := pad0 (s.tM ^^^ s.tY0 ^^^ s.tY1) dlen.toNat, tagout := s.crsp.out0 }) ∧
    (ctDiff s.crsp.out0 s.tagin = 0#8 →
      exec (.cy2dec nlen alen dlen) s = .next { complete .ok s with dout := s.tM }) ∧
    (ctDiff s.crsp.out0 s.tagin ≠ 0#8 →
      exec (.cy2dec nlen alen dlen) s = .next { complete .authFailure s with dout := 0 })

/-- A waiting Cymric2 command does not move without an answer, no command moves while the block is idle, an illegal word does
not move outside DISPATCH, and the collaborator does not move without a request (10_state.md R36 to R39,
70_reset_and_hazards.md R190, 60_exceptions.md R173; that a move which is not enabled leaves the state as it is is the
model's choice, log entries 6 and 7). -/
def Obligations.NothingMovesUnlessEnabled : Prop :=
  (∀ (i : Instr) (s : State),
    (s.phase = .idle → exec i s = .next s) ∧
    (s.phase = .aeWait1 ∨ s.phase = .aeWait2 → s.crsp.valid = false → exec i s = .next s)) ∧
  (∀ (i : Instr) (s : State) (xlen : Byte), i = .clear ∨ i = .gfmac xlen ∨ i = .pvmac xlen ∨ i = .pvkey →
    s.phase ≠ .dispatch → exec i s = .next s) ∧
  (∀ (s : State) (e : IllegalWord), decode s.cmd = .error e → s.phase ≠ .dispatch → sequencerMove s = .next s) ∧
  (∀ (E : Cipher) (s : State), s.creq.valid = false → collaboratorMove E s = s)

/-! ### Frames -/

/-- The Field Unit commands and CLEAR, whatever they answer: CMD, CTRL, OVR and the outside world are as before; the Field
Unit commands leave the AEAD Engine's registers and `X`, GFMAC and PVMAC leave `H`, PVKEY leaves `Y`
(10_state.md R46, 70_reset_and_hazards.md R185). -/
def Obligations.FieldUnitFrame : Prop :=
  ∀ (i : Instr) (s t : State) (xlen : Byte),
    i = .clear ∨ i = .gfmac xlen ∨ i = .pvmac xlen ∨ i = .pvkey → exec i s = .next t →
    SameOutside s t ∧ t.cmd = s.cmd ∧ t.ie = s.ie ∧ t.status.ovr = s.status.ovr ∧
    (i ≠ .clear → t.x = s.x ∧ t.n = s.n ∧ t.a = s.a ∧ t.din = s.din ∧ t.tagin = s.tagin ∧ t.dout = s.dout ∧
      t.tagout = s.tagout) ∧
    (i = .gfmac xlen ∨ i = .pvmac xlen → t.h = s.h) ∧ (i = .pvkey → t.y = s.y)

/-- The Cymric2 commands, in every phase: CMD, CTRL, OVR, the outside world, `Y`, `H`, `X` and the four operand registers are
as before; `DOUT` is as before unless the command completes in this step with RC 0x00 or 0x01, `TAGOUT` unless CY2ENC
completes with RC 0x00 (10_state.md R46, 70_reset_and_hazards.md R185). -/
def Obligations.AeadEngineFrame : Prop :=
  ∀ (i : Instr) (s t : State) (nlen alen dlen : Byte),
    i = .cy2enc nlen alen dlen ∨ i = .cy2dec nlen alen dlen → exec i s = .next t →
    SameOutside s t ∧ t.cmd = s.cmd ∧ t.ie = s.ie ∧ t.status.ovr = s.status.ovr ∧
    t.y = s.y ∧ t.h = s.h ∧ t.x = s.x ∧ t.n = s.n ∧ t.a = s.a ∧ t.din = s.din ∧ t.tagin = s.tagin ∧
    (t.dout = s.dout ∨ (s.phase = .aeWait2 ∧ t.phase = .idle ∧ (t.status.rc = 0x00#8 ∨ t.status.rc = 0x01#8))) ∧
    (t.tagout = s.tagout ∨
      (i = .cy2enc nlen alen dlen ∧ s.phase = .aeWait2 ∧ t.phase = .idle ∧ t.status.rc = 0x00#8))

/-- Completions are precise: a command that ends with LengthError or IllegalCommand has changed no register but STATUS, one
that ends with AuthFailure has changed `DOUT` to zero and no other (60_exceptions.md R165). -/
def Obligations.PreciseCompletions : Prop :=
  ∀ (s t : State), s.status.busy = true → sequencerMove s = .next t → t.status.busy = false →
    (t.status.rc = 0xFF#8 ∨ t.status.rc = 0xFE#8 → SameRegisters s t) ∧
    (t.status.rc = 0x01#8 → t.dout = 0 ∧ SameRegisters { s with dout := 0 } t)

/-- The busy rule: a step that begins and ends busy leaves every register but STATUS as it was, whatever agent takes it, so
operands are stable and no result is visible early (70_reset_and_hazards.md R186, 20_memory.md R51, R64). -/
def Obligations.BusyKeepsRegisters : Prop :=
  ∀ (E : Cipher) (s t : State), s.status.busy = true → stepWith E s = .next t → t.status.busy = true →
    SameRegisters s t ∧ t.status.done = s.status.done ∧ t.status.rc = s.status.rc

/-- The requests on the cipher port: a command makes one only in a Cymric2 command's DISPATCH step with good lengths
(slot 0, `P0`, `P1`) or in its AE_WAIT1 step (slot 1, `T` twice) (20_memory.md R58, R60). -/
def Obligations.CipherRequestsMade : Prop :=
  ∀ (i : Instr) (s t : State), exec i s = .next t → s.creq.valid = false → t.creq.valid = true →
    ∃ nlen alen dlen, (i = .cy2enc nlen alen dlen ∨ i = .cy2dec nlen alen dlen) ∧
      ((s.phase = .dispatch ∧ t.phase = .aeWait1 ∧ dlen.toNat ≤ 16 ∧ nlen.toNat + alen.toNat ≤ 15 ∧
          t.creq = ⟨true, .slot0, blockP0 s nlen alen dlen, blockP1 s nlen alen dlen⟩) ∨
        (s.phase = .aeWait1 ∧ t.phase = .aeWait2 ∧ t.creq = ⟨true, .slot1, t.tT, t.tT⟩ ∧
          t.tT = t.tY0 ^^^ pad10 t.tM dlen.toNat))

/-! ### Bytes and blocks -/

/-- R9: `be32`, `be128` as the sum over the bytes, `blk` its inverse, and the four big-endian words. -/
def Obligations.BlocksAreBigEndian : Prop :=
  (∀ b0 b1 b2 b3 : Byte,
    be32 b0 b1 b2 b3 = b0.toNat * 2 ^ 24 + b1.toNat * 2 ^ 16 + b2.toNat * 2 ^ 8 + b3.toNat) ∧
  (∀ B : Block, be128 B = ((List.range 16).map fun i => (byteAt B i).toNat * 2 ^ (8 * (15 - i))).sum) ∧
  (∀ v : Nat, v < 2 ^ 128 → be128 (blk v) = v) ∧ (∀ B : Block, blk (be128 B) = B) ∧
  (∀ B : Block,
    let w := fun j => be32 (byteAt B (4 * j)) (byteAt B (4 * j + 1)) (byteAt B (4 * j + 2)) (byteAt B (4 * j + 3))
    be128 B = w 0 * 2 ^ 96 + w 1 * 2 ^ 64 + w 2 * 2 ^ 32 + w 3)

/-- The bytes of `Rev(B)` and of `pad0(X, n)`, and that a block is its sixteen bytes (00_scope.md R8, R15). -/
def Obligations.ReversalAndPaddingBytes : Prop :=
  (∀ (B : Block) (i : Nat), i < 16 → byteAt (rev B) i = byteAt B (15 - i)) ∧
  (∀ (X : Block) (n i : Nat), n ≤ 16 → i < 16 → byteAt (pad0 X n) i = if i < n then byteAt X i else 0) ∧
  (∀ A B : Block, (∀ i < 16, byteAt A i = byteAt B i) → A = B) ∧
  (∀ B : Block, rev (rev B) = B) ∧ (∀ A B : Block, rev (A ^^^ B) = rev A ^^^ rev B)

/-! ### The Field Unit's arithmetic -/

/-- Bit `i` of `poly(B)` is bit `7 - (i mod 8)` of byte `i div 8`, equally bit `127 - i` of `be128(B)`; `unpoly` is the
inverse (40_field_unit.md R90; the bit order is the spec's general knowledge, log entry 13). -/
def Obligations.CoefficientBits : Prop :=
  (∀ (B : Block) (i : Nat), i < 128 →
    (poly B).testBit i = (byteAt B (i / 8)).getLsbD (7 - i % 8) ∧ (poly B).testBit i = (be128 B).testBit (127 - i)) ∧
  (∀ B : Block, poly B < 2 ^ 128 ∧ unpoly (poly B) = B) ∧ (∀ p : Nat, p < 2 ^ 128 → poly (unpoly p) = p)

/-- R92: the carry-less product is the product of polynomials over GF(2) (coefficient `k` is the parity of the products of
coefficients whose degrees sum to `k`), its bound, its laws and the rule's examples. -/
def Obligations.CarryLessProductLaws : Prop :=
  (∀ a b k : Nat, (clmul a b).testBit k =
    (List.range (k + 1)).foldl (fun acc i => acc ^^ (a.testBit (k - i) && b.testBit i)) false) ∧
  (∀ a b m n : Nat, a ≠ 0 → b ≠ 0 → a < 2 ^ m → b < 2 ^ n → clmul a b < 2 ^ (m + n - 1)) ∧
  (∀ a : Nat, clmul a 0 = 0 ∧ clmul 0 a = 0) ∧
  (∀ a b : Nat, clmul a b = clmul b a) ∧
  (∀ a b c : Nat, clmul (clmul a b) c = clmul a (clmul b c)) ∧
  (∀ a b c : Nat, clmul (a ^^^ b) c = clmul a c ^^^ clmul b c ∧ clmul a (b ^^^ c) = clmul a b ^^^ clmul a c) ∧
  clmul 0xffffffff 0xffffffff = 0x5555555555555555 ∧ clmul 0xdeadbeef 0x12345678 = 0x0c42fde8de112da8

/-- The loop of R93 computes the remainder modulo the reduction polynomial: below `2^128`, and the only number there that
differs from `p` by a multiple of the polynomial (40_field_unit.md R93). -/
def Obligations.PolymodIsRemainder : Prop :=
  ∀ p : Nat, p < 2 ^ 255 →
    polymod p < 2 ^ 128 ∧ (∃ q, q < 2 ^ 127 ∧ p = polymod p ^^^ clmul (2 ^ 128 + 0x87) q) ∧
    ∀ r q, r < 2 ^ 128 → q < 2 ^ 127 → p = r ^^^ clmul (2 ^ 128 + 0x87) q → r = polymod p

/-- The reduction by folding computes the remainder (40_field_unit.md R94). -/
def Obligations.FoldComputesRemainder : Prop :=
  ∀ p : Nat, p < 2 ^ 255 → fold p = polymod p

/-- The two levels of three-way Karatsuba compute the carry-less product (40_field_unit.md R95). -/
def Obligations.KaratsubaComputesProduct : Prop :=
  (∀ u v : Nat, u < 2 ^ 64 → v < 2 ^ 64 → kmul64 u v = clmul u v ∧ kmul64 u v < 2 ^ 127) ∧
  (∀ a b : Nat, a < 2 ^ 128 → b < 2 ^ 128 → kmul128 a b = clmul a b ∧ kmul128 a b < 2 ^ 255)

/-- The datapath and the functional definition of the product are the same function on blocks (40_field_unit.md R93 to
R95). -/
def Obligations.DatapathRefinesProduct : Prop :=
  ∀ A B : Block, gfMulDatapath A B = gfMul A B

/-- The ring laws of the field arithmetic (40_field_unit.md R99, less the law that rests on irreducibility): commutative,
associative, distributive, `0` and `1`. -/
def Obligations.FieldArithmeticLaws : Prop :=
  (∀ A B : Block, gfMul A B = gfMul B A) ∧
  (∀ A B C : Block, gfMul (gfMul A B) C = gfMul A (gfMul B C)) ∧
  (∀ A B C : Block, gfMul (A ^^^ B) C = gfMul A C ^^^ gfMul B C) ∧
  (∀ A : Block, gfMul A 0 = 0) ∧
  (∀ A : Block, gfMul A 0x80000000000000000000000000000000#128 = A)

/-- `mulx_ghash(B) = B ⊗ x` (40_field_unit.md R97). -/
def Obligations.MulxIsTimesX : Prop :=
  ∀ B : Block, mulxGhash B = gfMul B 0x40000000000000000000000000000000#128

/-- The POLYVAL step of one full block (R102's formula, `polyvalStep`) under the prepared key (R103's formula,
`mulxGhash (rev H)`) is native POLYVAL: with blocks read little-endian and the modulus
`x^128 + x^127 + x^126 + x^121 + 1`, the new accumulator times `x^128` is congruent to `(Y ⊕ X)` times the unprepared key
(40_field_unit.md R105, the spec's general knowledge, not the source's). -/
def Obligations.PolyvalNativeDefinition : Prop :=
  let le := fun B : Block => be128 (rev B)
  ∀ Y H X : Block, ∃ q : Nat, q < 2 ^ 128 ∧
    clmul (le (Y ^^^ X)) (le H) =
      (le (polyvalStep Y (mulxGhash (rev H)) X) <<< 128) ^^^ clmul (2 ^ 128 + 2 ^ 127 + 2 ^ 126 + 2 ^ 121 + 1) q

/-! ### The AEAD Engine's functions -/

/-- The bytes of `P0` and `P1`: zeros, nonce, associated data, domain byte; the domain bytes of R122; and the two blocks
differ only in bit 6 of the last byte (41_cymric_engine.md R122, with the zero bytes on the left as decision D16 says,
log entry 11). -/
def Obligations.DomainBlockBytes : Prop :=
  ∀ (N A : Block) (nlen alen dlen : Nat), nlen + alen ≤ 15 → dlen ≤ 16 →
    (∀ i < 16,
      let body := if i < 15 - nlen - alen then 0
        else if i < 15 - alen then byteAt N (i - (15 - nlen - alen)) else byteAt A (i - (15 - alen))
      byteAt (p0 N A nlen alen dlen) i = (if i < 15 then body else if dlen = 16 then 0xA0#8 else 0x20#8) ∧
      byteAt (p1 N A nlen alen dlen) i = (if i < 15 then body else if dlen = 16 then 0xE0#8 else 0x60#8)) ∧
    p0 N A nlen alen dlen ^^^ p1 N A nlen alen dlen = 0x40#128

/-- A full-block message and a shorter one give four pairwise different cipher inputs for the same nonce and associated data
(41_cymric_engine.md R134). -/
def Obligations.DomainSeparation : Prop :=
  ∀ (N A : Block) (nlen alen dlen : Nat), nlen + alen ≤ 15 → dlen < 16 →
    [p0 N A nlen alen 16, p1 N A nlen alen 16, p0 N A nlen alen dlen, p1 N A nlen alen dlen].Pairwise (· ≠ ·)

/-- The cipher inputs depend on nonce and associated data only through their concatenation stripped of leading zero bytes,
and on the message length only through `b` (41_cymric_engine.md R123). -/
def Obligations.DomainBlocksForgetTheSplit : Prop :=
  ∀ (n a n' a' : List Byte) (k dlen dlen' : Nat), n' ++ a' = List.replicate k 0 ++ (n ++ a) →
    n'.length + a'.length ≤ 15 → (dlen = 16 ↔ dlen' = 16) →
    p0Of n' a' dlen' = p0Of n a dlen ∧ p1Of n' a' dlen' = p1Of n a dlen

/-- The bytes of `pad10`, and that it is injective on the message bytes of one length and separates two lengths below 16
(41_cymric_engine.md R126). -/
def Obligations.PadTenBytes : Prop :=
  (∀ (M : Block) (n i : Nat), n < 16 → i < 16 →
    byteAt (pad10 M n) i = if i < n then byteAt M i else if i = n then 0x80#8 else 0x00#8) ∧
  (∀ M : Block, pad10 M 16 = M) ∧
  (∀ (M M' : Block) (n : Nat), n ≤ 16 → pad10 M n = pad10 M' n → ∀ i < n, byteAt M i = byteAt M' i) ∧
  (∀ (M M' : Block) (n n' : Nat), n < n' → n' < 16 → pad10 M n ≠ pad10 M' n')

/-- R128: the comparator's byte is the OR of the sixteen differences, and it is zero if and only if the blocks are equal. -/
def Obligations.ComparatorIsExact : Prop :=
  ∀ U V : Block,
    ctDiff U V =
      (byteAt U 0 ^^^ byteAt V 0) ||| (byteAt U 1 ^^^ byteAt V 1) ||| (byteAt U 2 ^^^ byteAt V 2) |||
      (byteAt U 3 ^^^ byteAt V 3) ||| (byteAt U 4 ^^^ byteAt V 4) ||| (byteAt U 5 ^^^ byteAt V 5) |||
      (byteAt U 6 ^^^ byteAt V 6) ||| (byteAt U 7 ^^^ byteAt V 7) ||| (byteAt U 8 ^^^ byteAt V 8) |||
      (byteAt U 9 ^^^ byteAt V 9) ||| (byteAt U 10 ^^^ byteAt V 10) ||| (byteAt U 11 ^^^ byteAt V 11) |||
      (byteAt U 12 ^^^ byteAt V 12) ||| (byteAt U 13 ^^^ byteAt V 13) ||| (byteAt U 14 ^^^ byteAt V 14) |||
      (byteAt U 15 ^^^ byteAt V 15) ∧
    (U = V ↔ ctDiff U V = 0#8)

/-- Round trip: what CY2ENC's function makes, CY2DEC's function accepts and opens, for every cipher and all byte strings that
pass the length check (41_cymric_engine.md R132). -/
def Obligations.DecryptAfterEncrypt : Prop :=
  ∀ (E : Cipher) (n a m C : List Byte) (G : Block), cy2Encrypt E n a m = .ok (C, G) →
    C.length = m.length ∧ cy2Decrypt E n a C G = .ok m

/-- A changed tag never verifies, for every cipher; a changed body does not verify under a cipher whose slot 1 is injective
(41_cymric_engine.md R133). -/
def Obligations.TamperingIsDetected : Prop :=
  ∀ (E : Cipher) (n a m C : List Byte) (G : Block), cy2Encrypt E n a m = .ok (C, G) →
    (∀ G' : Block, G' ≠ G → cy2Decrypt E n a C G' = .authFailure) ∧
    (Function.Injective (E .slot1) → ∀ C' : List Byte, C'.length = C.length → C' ≠ C →
      cy2Decrypt E n a C' G = .authFailure)

/-- From an accepted CY2ENC word with good lengths, the five moves of a Cymric2 command end it, and the results are those of
`cy2_encrypt` on the operand bytes; nothing else of the block is changed. The moves are those the schedule names, or those
of the default order while the host waits, which is the model's choice (41_cymric_engine.md R129, R130; 00_scope.md R19;
log entry 2). -/
def Obligations.EncryptionRunComputesConstruction : Prop :=
  ∀ (E : Cipher) (s : State) (nlen alen dlen : Byte), s.phase = .dispatch → HiddenClear s → CommandMovesNext s →
    decode s.cmd = .ok (.cy2enc nlen alen dlen) → dlen.toNat ≤ 16 → nlen.toNat + alen.toNat ≤ 15 →
    ∃ C G, cy2Encrypt E (bytes s.n 0 nlen.toNat) (bytes s.a 0 alen.toNat) (bytes s.din 0 dlen.toNat) = .ok (C, G) ∧
      runWith E 5 s = .next { complete .ok s with
        dout := pad0String C, tagout := G, schedule := s.schedule.drop 5 }

/-- From an accepted CY2DEC word with good lengths, the five moves of a Cymric2 command end it with what `cy2_decrypt` gives
on the operand bytes: the plaintext and RC 0x00, or sixteen zero bytes and RC 0x01. The moves are those the schedule names,
or those of the default order while the host waits, which is the model's choice (41_cymric_engine.md R129, R131;
00_scope.md R19; log entry 2). -/
def Obligations.DecryptionRunComputesConstruction : Prop :=
  ∀ (E : Cipher) (s : State) (nlen alen dlen : Byte), s.phase = .dispatch → HiddenClear s → CommandMovesNext s →
    decode s.cmd = .ok (.cy2dec nlen alen dlen) → dlen.toNat ≤ 16 → nlen.toNat + alen.toNat ≤ 15 →
    (∃ m, cy2Decrypt E (bytes s.n 0 nlen.toNat) (bytes s.a 0 alen.toNat) (bytes s.din 0 dlen.toNat) s.tagin = .ok m ∧
      runWith E 5 s = .next { complete .ok s with dout := pad0String m, schedule := s.schedule.drop 5 }) ∨
    (cy2Decrypt E (bytes s.n 0 nlen.toNat) (bytes s.a 0 alen.toNat) (bytes s.din 0 dlen.toNat) s.tagin = .authFailure ∧
      runWith E 5 s = .next { complete .authFailure s with dout := 0, schedule := s.schedule.drop 5 })

/-! ### The whole machine -/

/-- The invariant holds after reset. -/
def Obligations.InvariantAtReset : Prop :=
  ∀ E : Cipher, Inv E State.reset

/-- Every step that answers a next state keeps the invariant: BUSY and PHASE agree, RC is legal, nothing hidden survives a
command, and a waiting Cymric2 command holds exactly the construction's intermediate values, under every interleaving
(10_state.md R33, R34, 60_exceptions.md R160, 20_memory.md R62). -/
def Obligations.EveryStepKeepsInvariant : Prop :=
  ∀ (E : Cipher) (s t : State), Inv E s → stepWith E s = .next t → Inv E t

/-- Under every interleaving: when a Cymric2 command takes its last step in a state that meets the invariant, its results are
those of the construction on the operand bytes (00_scope.md R19, 41_cymric_engine.md R130, R131). -/
def Obligations.ResultsUnderEveryInterleaving : Prop :=
  ∀ (E : Cipher) (s : State) (nlen alen dlen : Byte), Inv E s → s.phase = .aeWait2 → s.crsp.valid = true →
    nextAgent s = .sequencer →
    (decode s.cmd = .ok (.cy2enc nlen alen dlen) → ∃ C G t,
      cy2Encrypt E (bytes s.n 0 nlen.toNat) (bytes s.a 0 alen.toNat) (bytes s.din 0 dlen.toNat) = .ok (C, G) ∧
      stepWith E s = .next t ∧ t.dout = pad0String C ∧ t.tagout = G ∧ t.status = ⟨false, true, s.status.ovr, 0x00#8⟩) ∧
    (decode s.cmd = .ok (.cy2dec nlen alen dlen) → ∃ r t,
      cy2Decrypt E (bytes s.n 0 nlen.toNat) (bytes s.a 0 alen.toNat) (bytes s.din 0 dlen.toNat) s.tagin = r ∧
      stepWith E s = .next t ∧ t.tagout = s.tagout ∧
      ((∃ m, r = .ok m ∧ t.dout = pad0String m ∧ t.status = ⟨false, true, s.status.ovr, 0x00#8⟩) ∨
        (r = .authFailure ∧ t.dout = 0 ∧ t.status = ⟨false, true, s.status.ovr, 0x01#8⟩)))

/-- With no schedule imposed, from a state that meets the invariant: a busy block completes within five steps once the host
waits; a script of `n` well-formed actions reaches the end of its run, no access left and BUSY = 0, within `6 n + 5` steps;
and after that end nothing moves (70_reset_and_hazards.md R190, 00_scope.md R18, 30_encoding.md R80; the default order is
the model's choice, log entry 2). -/
def Obligations.CompletionWithinFiveSteps : Prop :=
  (∀ (E : Cipher) (s : State), Inv E s → s.status.busy = true → s.schedule = [] → hostWaits s = true →
    ∃ k t, 1 ≤ k ∧ k ≤ 5 ∧ runWith E k s = .next t ∧ t.status.busy = false ∧ t.status.done = true) ∧
  (∀ (E : Cipher) (s : State), Inv E s → s.schedule = [] → (∀ act ∈ s.hostQueue, act.wellFormed = true) →
    ∃ t, runToEnd E (6 * s.hostQueue.length + 5) s = .next t ∧ t.hostQueue = [] ∧ t.status.busy = false) ∧
  (∀ (E : Cipher) (s : State), Inv E s → s.schedule = [] → s.hostQueue = [] → s.status.busy = false →
    stepWith E s = .next s)

/-- Secret independence: two states that agree on the phase, the command word, BUSY, the valid bits and the key slot of the
cipher port and on what the outside world does next still agree after a step, whatever the data registers, the answers,
the temporaries and even the ciphers are (70_reset_and_hazards.md R189). -/
def Obligations.StepOrderIsSecretIndependent : Prop :=
  ∀ (E E' : Cipher) (s s' : State), stepView s = stepView s' →
    (∃ t t', stepWith E s = .next t ∧ stepWith E' s' = .next t' ∧ stepView t = stepView t') ∨
    (∃ f, stepWith E s = .fault f ∧ stepWith E' s' = .fault f) ∨
    (∃ r, stepWith E s = .refused r ∧ stepWith E' s' = .refused r)

/-- What the host can read after a decryption fails does not depend on the recovered plaintext, on the recomputed tag or on
any other hidden value: two such states that look the same to the host look the same to it afterwards
(41_cymric_engine.md R131, R135). -/
def Obligations.FailedDecryptionRevealsNothing : Prop :=
  ∀ (s s' t t' : State) (nlen alen dlen : Byte), hostView s = hostView s' →
    s.phase = .aeWait2 → s'.phase = .aeWait2 → s.crsp.valid = true → s'.crsp.valid = true →
    s.crsp.out0 ≠ s.tagin → s'.crsp.out0 ≠ s'.tagin →
    exec (.cy2dec nlen alen dlen) s = .next t → exec (.cy2dec nlen alen dlen) s' = .next t' →
    hostView t = hostView t' ∧ t.dout = 0 ∧ t.tagout = s.tagout

/-- The machine stops only on a host access the port does not know: where the host's next action is well formed, or none is
left, every step answers a next state (60_exceptions.md R160; 20_memory.md R54). -/
def Obligations.WellFormedHostNeverStops : Prop :=
  ∀ (E : Cipher) (s : State), (∀ act rest, s.hostQueue = act :: rest → act.wellFormed = true) →
    ∃ t, stepWith E s = .next t
end

