-- ==== Sys2Proof/Laws/Bytes.lean ====
section
/-! SUPPORT. Blocks as byte sequences: what byte stands where after every byte-string operation. -/

namespace Sys2Proof.Machine

/-- One bit of a byte of a block, as a bit of the 128-bit number. -/
theorem byteAt_getLsbD (B : Block) (i j : Nat) :
    (byteAt B i).getLsbD j = (decide (j < 8) && B.getLsbD (8 * (15 - i) + j)) := by
  simp [byteAt, BitVec.getLsbD_extractLsb']

/-- A byte of a block as a number. -/
theorem byteAt_toNat (B : Block) (i : Nat) : (byteAt B i).toNat = B.toNat / 2 ^ (8 * (15 - i)) % 256 := by
  simp [byteAt, BitVec.extractLsb'_toNat, Nat.shiftRight_eq_div_pow]

/-- Two blocks with the same sixteen bytes are the same block (00_scope.md R8). -/
theorem block_ext {A B : Block} (h : ∀ i < 16, byteAt A i = byteAt B i) : A = B := by
  apply BitVec.eq_of_getLsbD_eq
  intro k hk
  have hb := congrArg (fun b => b.getLsbD (k % 8)) (h (15 - k / 8) (by omega))
  simp only [byteAt_getLsbD] at hb
  have e : 8 * (15 - (15 - k / 8)) + k % 8 = k := by omega
  have e' : k % 8 < 8 := by omega
  simpa [e, e'] using hb

@[simp] theorem byteAt_xor (A B : Block) (i : Nat) :
    byteAt (A ^^^ B) i = byteAt A i ^^^ byteAt B i := by
  apply BitVec.eq_of_getLsbD_eq
  intro k hk
  rw [BitVec.getLsbD_xor, byteAt_getLsbD, byteAt_getLsbD, byteAt_getLsbD, BitVec.getLsbD_xor]
  simp [hk]

@[simp] theorem byteAt_zero (i : Nat) : byteAt 0#128 i = 0#8 := by
  apply BitVec.eq_of_getLsbD_eq
  intro k hk
  simp [byteAt_getLsbD]

@[simp] theorem bytes_length (B : Block) (i n : Nat) : (bytes B i n).length = n := by simp [bytes]

@[simp] theorem zeros_length (n : Nat) : (zeros n).length = n := by simp [zeros]

@[simp] theorem bytes_getElem (B : Block) (i n k : Nat) (h : k < (bytes B i n).length) :
    (bytes B i n)[k] = byteAt B (i + k) := by simp [bytes]

@[simp] theorem zeros_getElem (n k : Nat) (h : k < (zeros n).length) : (zeros n)[k] = 0#8 := by
  simp [zeros]

theorem blockOf_concat (l : List Byte) (b : Byte) :
    blockOf (l ++ [b]) = (blockOf l <<< 8) ||| b.setWidth 128 := by simp [blockOf]

/-- The bits of a block built from bytes: the last byte is the lowest. -/
theorem blockOf_getLsbD (l : List Byte) (j : Nat) (hj : j < 128) :
    (blockOf l).getLsbD j = ((l.reverse[j / 8]?).getD 0).getLsbD (j % 8) := by
  induction l using List.reverseRecOn generalizing j with
  | nil => simp [blockOf]
  | append_singleton l b ih =>
    rw [blockOf_concat]
    by_cases h : j < 8
    · have e1 : j / 8 = 0 := by omega
      have e2 : j % 8 = j := by omega
      simp [h, e1, e2, hj]
    · obtain ⟨k, rfl⟩ : ∃ k, j = k + 8 := ⟨j - 8, by omega⟩
      have e1 : (k + 8) / 8 = k / 8 + 1 := by omega
      have e2 : (k + 8) % 8 = k % 8 := by omega
      have hb : b.getLsbD (k + 8) = false := BitVec.getLsbD_of_ge b (k + 8) (by omega)
      rw [BitVec.getLsbD_or, BitVec.getLsbD_shiftLeft, BitVec.getLsbD_setWidth, hb, Nat.add_sub_cancel,
        ih k (by omega), e1, e2]
      simp [hj]

/-- Byte `i` of a block built from sixteen bytes is the `i`-th of them (00_scope.md R8). -/
theorem byteAt_blockOf (l : List Byte) (hl : l.length = 16) (i : Nat) (hi : i < 16) :
    byteAt (blockOf l) i = l[i] := by
  apply BitVec.eq_of_getLsbD_eq
  intro k hk
  rw [byteAt_getLsbD, blockOf_getLsbD _ _ (by omega)]
  have e1 : (8 * (15 - i) + k) / 8 = 15 - i := by omega
  have e2 : (8 * (15 - i) + k) % 8 = k := by omega
  have e3 : l.length - 1 - (15 - i) = i := by omega
  have e4 : 15 - i < l.reverse.length := by simp; omega
  simp [e1, e2, e3, hk, List.getElem?_eq_getElem e4]

/-- `Rev(B)[i] = B[15-i]` (00_scope.md R15). -/
@[simp] theorem byteAt_rev (B : Block) (i : Nat) (hi : i < 16) : byteAt (rev B) i = byteAt B (15 - i) := by
  rw [rev, byteAt_blockOf _ (by simp) i hi]
  simp

theorem rev_rev (B : Block) : rev (rev B) = B := by
  apply block_ext
  intro i hi
  have e : 15 - (15 - i) = i := by omega
  rw [byteAt_rev _ _ hi, byteAt_rev _ _ (by omega), e]

theorem rev_xor (A B : Block) : rev (A ^^^ B) = rev A ^^^ rev B := by
  apply block_ext
  intro i hi
  simp [hi]

/-- The bytes of `pad0(X, n)` (00_scope.md R15). -/
theorem byteAt_pad0 (X : Block) (n i : Nat) (hn : n ≤ 16) (hi : i < 16) :
    byteAt (pad0 X n) i = if i < n then byteAt X i else 0 := by
  rw [pad0, byteAt_blockOf _ (by simp; omega) i hi, List.getElem_append]
  simp

theorem pad0_xor (A B : Block) (n : Nat) (hn : n ≤ 16) : pad0 (A ^^^ B) n = pad0 A n ^^^ pad0 B n := by
  apply block_ext
  intro i hi
  rw [byteAt_xor, byteAt_pad0 _ _ _ hn hi, byteAt_pad0 _ _ _ hn hi, byteAt_pad0 _ _ _ hn hi, byteAt_xor]
  split <;> simp

theorem pad0_pad0 (A : Block) (n : Nat) (hn : n ≤ 16) : pad0 (pad0 A n) n = pad0 A n := by
  apply block_ext
  intro i hi
  rw [byteAt_pad0 _ _ _ hn hi, byteAt_pad0 _ _ _ hn hi]
  split <;> rfl

theorem pad0_full (A : Block) : pad0 A 16 = A := by
  apply block_ext
  intro i hi
  rw [byteAt_pad0 _ _ _ le_rfl hi, if_pos hi]

/-- The bytes of `pad10(M, n)` (41_cymric_engine.md R126). -/
theorem byteAt_pad10 (M : Block) (n i : Nat) (hn : n < 16) (hi : i < 16) :
    byteAt (pad10 M n) i = if i < n then byteAt M i else if i = n then 0x80#8 else 0 := by
  rw [pad10, if_pos hn, byteAt_blockOf _ (by simp; omega) i hi]
  simp only [List.getElem_append, bytes_length, List.length_append, List.length_cons, List.length_nil,
    bytes_getElem, zero_add, List.getElem_singleton, zeros_getElem]
  by_cases h1 : i < n
  · simp [h1, Nat.lt_succ_of_lt h1]
  · by_cases h2 : i = n
    · subst h2; simp
    · have h3 : ¬ i < n + 1 := by omega
      simp [h1, h2, h3]

theorem pad10_full (M : Block) : pad10 M 16 = M := by simp [pad10]

/-- The bytes of a domain-separated block with the zero bytes on the left (41_cymric_engine.md R122). -/
theorem byteAt_domainBlock (N A : Block) (nlen alen : Nat) (d : Byte) (h : nlen + alen ≤ 15) (i : Nat) (hi : i < 16) :
    byteAt (domainBlock .left (bytes N 0 nlen) (bytes A 0 alen) d) i =
      if i < 15 - nlen - alen then 0
      else if i < 15 - alen then byteAt N (i - (15 - nlen - alen))
      else if i < 15 then byteAt A (i - (15 - alen))
      else d := by
  simp only [domainBlock, bytes_length]
  rw [byteAt_blockOf _ (by simp; omega) i hi]
  simp only [List.getElem_append, bytes_length, zeros_length, List.length_append, bytes_getElem,
    zeros_getElem, zero_add, List.getElem_singleton]
  by_cases h1 : i < 15 - nlen - alen
  · simp [h1]
  · have e1 : i - (15 - nlen - alen) < nlen ↔ i < 15 - alen := by omega
    have e2 : i - (15 - nlen - alen) < nlen + alen ↔ i < 15 := by omega
    by_cases h2 : i < 15 - alen
    · have h3 : i < 15 := by omega
      simp [h1, h2, h3, e1, e2]
    · by_cases h3 : i < 15
      · have e : i - (15 - nlen - alen) - nlen = i - (15 - alen) := by omega
        simp [h1, h2, h3, e1, e2, e]
      · simp [h1, h2, h3, e2]

/-- The comparator's byte is zero exactly for equal blocks (41_cymric_engine.md R128). -/
theorem foldl_or_eq_zero (f : Nat → Byte) (l : List Nat) (acc : Byte) :
    l.foldl (fun acc i => acc ||| f i) acc = 0 ↔ acc = 0 ∧ ∀ i ∈ l, f i = 0 := by
  induction l generalizing acc with
  | nil => simp
  | cons k l ih =>
    have e : acc ||| f k = 0 ↔ acc = 0 ∧ f k = 0 := BitVec.or_eq_zero_iff
    rw [List.foldl_cons, ih, e, List.forall_mem_cons, and_assoc]

theorem ctDiff_eq_zero (U V : Block) : ctDiff U V = 0#8 ↔ U = V := by
  have h := foldl_or_eq_zero (fun i => byteAt U i ^^^ byteAt V i) (List.range 16) 0
  refine h.trans ⟨fun hd => block_ext fun i hi => ?_, fun hd => ⟨rfl, fun i _ => by simp [hd]⟩⟩
  simpa using hd.2 i (List.mem_range.2 hi)

end Sys2Proof.Machine
end

