-- ==== Sys2Proof/Laws/Construction.lean ====
section
/-! SUPPORT. Byte strings against register blocks: what connects the construction's pure functions with the registers. -/

namespace Sys2Proof.Machine

theorem pad0String_bytes (B : Block) (n : Nat) : pad0String (bytes B 0 n) = pad0 B n := by
  simp [pad0String, pad0]

theorem pad10String_bytes (B : Block) (n : Nat) (h : n ≤ 16) : pad10String (bytes B 0 n) = pad10 B n := by
  simp only [pad10String, pad10, bytes_length]
  split
  · rfl
  · obtain rfl : n = 16 := by omega
    have hf := pad0_full B
    simpa [pad0, zeros] using hf

/-- The padding of the tag pre-image reads only the message bytes (41_cymric_engine.md R126). -/
theorem pad10_pad0 (B : Block) (n : Nat) (h : n ≤ 16) : pad10 (pad0 B n) n = pad10 B n := by
  rcases Nat.lt_or_ge n 16 with h1 | h1
  · apply block_ext
    intro i hi
    rw [byteAt_pad10 _ _ _ h1 hi, byteAt_pad10 _ _ _ h1 hi, byteAt_pad0 _ _ _ h hi]
    split <;> rfl
  · obtain rfl : n = 16 := by omega
    rw [pad0_full]

theorem byteAt_pad0String (s : List Byte) (h : s.length ≤ 16) (i : Nat) (hi : i < 16) :
    byteAt (pad0String s) i = s.getD i 0 := by
  rw [pad0String, byteAt_blockOf _ (by simp; omega) i hi, List.getElem_append]
  split
  · simp [*]
  · simp only [zeros_getElem]
    rw [List.getD_eq_default _ _ (by omega)]
    rfl

/-- The bytes of a padded string are the string. -/
theorem bytes_pad0String (s : List Byte) (h : s.length ≤ 16) : bytes (pad0String s) 0 s.length = s := by
  apply List.ext_getElem (by simp)
  intro i h1 h2
  rw [bytes_getElem, Nat.zero_add, byteAt_pad0String _ h _ (by omega), List.getD_eq_getElem _ _ h2]

theorem domainByte0_cases (dlen : Nat) : domainByte0 dlen = if dlen = 16 then 0xA0#8 else 0x20#8 := by
  unfold domainByte0
  split <;> decide

theorem domainByte1_cases (dlen : Nat) : domainByte1 dlen = if dlen = 16 then 0xE0#8 else 0x60#8 := by
  unfold domainByte1
  rw [domainByte0_cases]
  split <;> decide

end Sys2Proof.Machine
end

