-- ==== Sys2Proof/Laws/Decode.lean ====
section
/-! SUPPORT. The fields of a command word and what decoding answers. -/

namespace Sys2Proof

@[simp] theorem opcodeField_commandWord (opc f1 f2 f3 : Byte) : opcodeField (commandWord opc f1 f2 f3) = opc := by
  apply BitVec.eq_of_getLsbD_eq
  intro i hi
  have h1 : i < 16 := by omega
  have h2 : i < 24 := by omega
  have h3 : i < 32 := by omega
  simp only [opcodeField, commandWord, BitVec.getLsbD_extractLsb', BitVec.getLsbD_or, BitVec.getLsbD_shiftLeft,
    BitVec.getLsbD_setWidth, Nat.zero_add]
  simp [hi, h1, h2, h3]

@[simp] theorem field1_commandWord (opc f1 f2 f3 : Byte) : field1 (commandWord opc f1 f2 f3) = f1 := by
  apply BitVec.eq_of_getLsbD_eq
  intro i hi
  have e : opc.getLsbD (8 + i) = false := BitVec.getLsbD_of_ge _ _ (by omega)
  have h1 : 8 + i < 32 := by omega
  have h2 : 8 + i < 16 := by omega
  have h3 : 8 + i < 24 := by omega
  have h4 : i < 32 := by omega
  simp only [field1, commandWord, BitVec.getLsbD_extractLsb', BitVec.getLsbD_or, BitVec.getLsbD_shiftLeft,
    BitVec.getLsbD_setWidth, e, Nat.add_sub_cancel_left]
  simp [hi, h1, h2, h3, h4]

@[simp] theorem field2_commandWord (opc f1 f2 f3 : Byte) : field2 (commandWord opc f1 f2 f3) = f2 := by
  apply BitVec.eq_of_getLsbD_eq
  intro i hi
  have e : opc.getLsbD (16 + i) = false := BitVec.getLsbD_of_ge _ _ (by omega)
  have e1 : f1.getLsbD (16 + i - 8) = false := BitVec.getLsbD_of_ge _ _ (by omega)
  have h1 : 16 + i < 32 := by omega
  have h3 : 16 + i < 24 := by omega
  have h4 : i < 32 := by omega
  simp only [field2, commandWord, BitVec.getLsbD_extractLsb', BitVec.getLsbD_or, BitVec.getLsbD_shiftLeft,
    BitVec.getLsbD_setWidth, e, e1, Nat.add_sub_cancel_left]
  simp [hi, h1, h3, h4]

@[simp] theorem field3_commandWord (opc f1 f2 f3 : Byte) : field3 (commandWord opc f1 f2 f3) = f3 := by
  apply BitVec.eq_of_getLsbD_eq
  intro i hi
  have e : opc.getLsbD (24 + i) = false := BitVec.getLsbD_of_ge _ _ (by omega)
  have e1 : f1.getLsbD (24 + i - 8) = false := BitVec.getLsbD_of_ge _ _ (by omega)
  have e2 : f2.getLsbD (24 + i - 16) = false := BitVec.getLsbD_of_ge _ _ (by omega)
  have h1 : 24 + i < 32 := by omega
  have h4 : i < 32 := by omega
  simp only [field3, commandWord, BitVec.getLsbD_extractLsb', BitVec.getLsbD_or, BitVec.getLsbD_shiftLeft,
    BitVec.getLsbD_setWidth, e, e1, e2, Nat.add_sub_cancel_left]
  simp [hi, h1, h4]

/-- A word is the command word of its four bytes (30_encoding.md R71). -/
theorem commandWord_fields (w : Word) : commandWord (opcodeField w) (field1 w) (field2 w) (field3 w) = w := by
  apply BitVec.eq_of_getLsbD_eq
  intro i hi
  simp only [commandWord, opcodeField, field1, field2, field3, BitVec.getLsbD_or, BitVec.getLsbD_shiftLeft,
    BitVec.getLsbD_setWidth, BitVec.getLsbD_extractLsb', Nat.zero_add]
  rcases Nat.lt_or_ge i 8 with h | h
  · have h1 : i < 16 := by omega
    have h2 : i < 24 := by omega
    simp [hi, h, h1, h2]
  · rcases Nat.lt_or_ge i 16 with h1 | h1
    · have h2 : i < 24 := by omega
      have a1 : i - 8 < 8 := by omega
      have a2 : 8 + (i - 8) = i := by omega
      have a3 : i - 8 < 32 := by omega
      have a4 : ¬ i < 8 := by omega
      simp [hi, h1, h2, a1, a2, a3, a4]
    · rcases Nat.lt_or_ge i 24 with h2 | h2
      · have a1 : i - 16 < 8 := by omega
        have a2 : 16 + (i - 16) = i := by omega
        have a3 : i - 16 < 32 := by omega
        have a4 : ¬ i < 8 := by omega
        have a5 : ¬ i - 8 < 8 := by omega
        have a6 : ¬ i < 16 := by omega
        simp [hi, h2, a1, a2, a3, a4, a5, a6]
      · have a1 : i - 24 < 8 := by omega
        have a2 : 24 + (i - 24) = i := by omega
        have a3 : i - 24 < 32 := by omega
        have a4 : ¬ i < 8 := by omega
        have a5 : ¬ i - 8 < 8 := by omega
        have a6 : ¬ i - 16 < 8 := by omega
        have a7 : ¬ i < 24 := by omega
        simp [hi, a1, a2, a3, a4, a5, a6, a7]

/-- The must-be-zero bits of format F are the two upper bytes (R71). -/
theorem upperHalf_eq_zero (w : Word) : w.extractLsb' 16 16 = 0#16 ↔ field2 w = 0 ∧ field3 w = 0 := by
  constructor
  · intro h
    have hb : ∀ i < 16, w.getLsbD (16 + i) = false := by
      intro i hi
      have := congrArg (fun v => v.getLsbD i) h
      simpa [BitVec.getLsbD_extractLsb', hi] using this
    constructor <;> apply BitVec.eq_of_getLsbD_eq <;> intro i hi
    · rw [field2, BitVec.getLsbD_extractLsb', hb i (by omega)]; simp
    · rw [field3, BitVec.getLsbD_extractLsb', show 24 + i = 16 + (8 + i) by omega, hb (8 + i) (by omega)]; simp
  · rintro ⟨h2, h3⟩
    apply BitVec.eq_of_getLsbD_eq
    intro i hi
    rw [BitVec.getLsbD_extractLsb']
    rcases Nat.lt_or_ge i 8 with h | h
    · have := congrArg (fun v => v.getLsbD i) h2
      simp only [field2, BitVec.getLsbD_extractLsb'] at this
      simpa [h, hi] using this
    · have := congrArg (fun v => v.getLsbD (i - 8)) h3
      have a : i - 8 < 8 := by omega
      simp only [field3, BitVec.getLsbD_extractLsb', show 24 + (i - 8) = 16 + i by omega] at this
      simpa [a, hi] using this

/-- The must-be-zero bits of format Z are the three upper bytes (R71). -/
theorem upperBytes_eq_zero (w : Word) :
    w.extractLsb' 8 24 = 0#24 ↔ field1 w = 0 ∧ field2 w = 0 ∧ field3 w = 0 := by
  rw [← upperHalf_eq_zero]
  constructor
  · intro h
    have hb : ∀ i < 24, w.getLsbD (8 + i) = false := by
      intro i hi
      have := congrArg (fun v => v.getLsbD i) h
      simpa [BitVec.getLsbD_extractLsb', hi] using this
    constructor <;> apply BitVec.eq_of_getLsbD_eq <;> intro i hi
    · rw [field1, BitVec.getLsbD_extractLsb', hb i (by omega)]; simp
    · rw [BitVec.getLsbD_extractLsb', show 16 + i = 8 + (8 + i) by omega, hb (8 + i) (by omega)]; simp
  · rintro ⟨h1, h2⟩
    apply BitVec.eq_of_getLsbD_eq
    intro i hi
    rw [BitVec.getLsbD_extractLsb']
    rcases Nat.lt_or_ge i 8 with h | h
    · have := congrArg (fun v => v.getLsbD i) h1
      simp only [field1, BitVec.getLsbD_extractLsb'] at this
      simpa [h, hi] using this
    · have := congrArg (fun v => v.getLsbD (i - 8)) h2
      have a : i - 8 < 16 := by omega
      simp only [BitVec.getLsbD_extractLsb', show 16 + (i - 8) = 8 + i by omega] at this
      simpa [a, hi] using this

/-- What a legal word is, case by case (30_encoding.md R76). -/
theorem decode_ok_cases {w : Word} {i : Instr} (h : decode w = .ok i) :
    (i = .clear ∧ opcodeField w = 0x01#8 ∧ w.extractLsb' 8 24 = 0#24) ∨
    (i = .gfmac (field1 w) ∧ opcodeField w = 0x10#8 ∧ w.extractLsb' 16 16 = 0#16) ∨
    (i = .pvmac (field1 w) ∧ opcodeField w = 0x11#8 ∧ w.extractLsb' 16 16 = 0#16) ∨
    (i = .pvkey ∧ opcodeField w = 0x12#8 ∧ w.extractLsb' 8 24 = 0#24) ∨
    (i = .cy2enc (field1 w) (field2 w) (field3 w) ∧ opcodeField w = 0x20#8) ∨
    (i = .cy2dec (field1 w) (field2 w) (field3 w) ∧ opcodeField w = 0x21#8) := by
  simp only [decode] at h
  split at h
  · rename_i ho; split at h <;> simp_all
  · split at h
    · rename_i ho; split at h <;> simp_all
    · split at h
      · rename_i ho; split at h <;> simp_all
      · split at h
        · rename_i ho; split at h <;> simp_all
        · split at h
          · simp_all
          · split at h
            · simp_all
            · split at h <;> simp_all

end Sys2Proof
end

