-- ==== Sys2Proof/Laws/FieldArith.lean ====
section
/-! SUPPORT. The algebra of carry-less products and of the reduction: linearity, bounds, and the multiples of the reduction
polynomial. -/

namespace Sys2Proof.Machine

/-- Every number below `2^k` is an exclusive-or of powers of two below it. -/
theorem xor_induction {P : Nat → Prop} (k : Nat) (h0 : P 0) (hb : ∀ i < k, P (2 ^ i))
    (hx : ∀ a b, a < 2 ^ k → b < 2 ^ k → P a → P b → P (a ^^^ b)) : ∀ n < 2 ^ k, P n := by
  have key : ∀ j ≤ k, ∀ n < 2 ^ j, P n := by
    intro j
    induction j with
    | zero => intro _ n hn; obtain rfl : n = 0 := by simpa using hn
              exact h0
    | succ j ih =>
      intro hj n hn
      have hlt : n % 2 ^ j < 2 ^ j := Nat.mod_lt _ (by positivity)
      have hmono : (2 : Nat) ^ (j + 1) ≤ 2 ^ k := Nat.pow_le_pow_right (by norm_num) hj
      have hj2 : (2 : Nat) ^ (j + 1) = 2 * 2 ^ j := by ring
      have hsplit : n = (n % 2 ^ j) ^^^ (if n.testBit j then 2 ^ j else 0) := by
        apply Nat.eq_of_testBit_eq
        intro i
        rw [Nat.testBit_xor, Nat.testBit_mod_two_pow]
        rcases Nat.lt_trichotomy i j with h | h | h
        · have hne : (2 ^ j).testBit i = false := Nat.testBit_two_pow_of_ne (by omega)
          split <;> simp [h, hne]
        · subst h
          split <;> simp_all
        · have hge : n.testBit i = false :=
            Nat.testBit_lt_two_pow (lt_of_lt_of_le hn (Nat.pow_le_pow_right (by norm_num) h))
          have hne : (2 ^ j).testBit i = false := Nat.testBit_two_pow_of_ne (by omega)
          have : ¬ i < j := by omega
          split <;> simp [hge, hne, this]
      rw [hsplit]
      split
      · exact hx _ _ (by omega) (by omega) (ih (by omega) _ hlt) (hb j (by omega))
      · simpa using ih (by omega) _ hlt
  exact key k le_rfl

/-! ### Blocks as coefficient integers -/

theorem poly_lt (B : Block) : poly B < 2 ^ 128 := B.reverse.isLt

@[simp] theorem unpoly_poly (B : Block) : unpoly (poly B) = B := by
  simp [unpoly, poly]

theorem poly_unpoly (p : Nat) (h : p < 2 ^ 128) : poly (unpoly p) = p := by
  simpa [unpoly, poly] using h

/-- Bit `i` of `poly(B)` is bit `127 - i` of `be128(B)` (40_field_unit.md R90). -/
theorem poly_testBit (B : Block) (i : Nat) (hi : i < 128) : (poly B).testBit i = (be128 B).testBit (127 - i) := by
  rw [poly, be128, ← BitVec.getLsbD, BitVec.getLsbD_reverse, BitVec.getMsbD, ← BitVec.getLsbD]
  simp [hi]

theorem poly_xor (A B : Block) : poly (A ^^^ B) = poly A ^^^ poly B := by
  apply Nat.eq_of_testBit_eq
  intro i
  by_cases hi : i < 128
  · simp [poly_testBit _ _ hi, be128]
  · have hp : ∀ C : Block, (poly C).testBit i = false := fun C =>
      Nat.testBit_lt_two_pow (lt_of_lt_of_le (poly_lt C) (Nat.pow_le_pow_right (by norm_num) (by omega)))
    simp [hp]

theorem poly_injective {A B : Block} (h : poly A = poly B) : A = B := by
  rw [← unpoly_poly A, h, unpoly_poly]

@[simp] theorem poly_zero : poly 0#128 = 0 := by
  have h := poly_xor 0#128 0#128
  simpa using h

/-! ### The carry-less product -/

theorem clmulBits_zero_left (b k : Nat) : clmulBits 0 b k = 0 := by
  induction k with
  | zero => rfl
  | succ k ih => simp [clmulBits, ih]

theorem clmulBits_stable (a b k j : Nat) (h : b < 2 ^ k) : clmulBits a b (k + j) = clmulBits a b k := by
  induction j with
  | zero => rfl
  | succ j ih =>
    have hb : b.testBit (k + j) = false :=
      Nat.testBit_lt_two_pow (lt_of_lt_of_le h (Nat.pow_le_pow_right (by norm_num) (by omega)))
    rw [← Nat.add_assoc, clmulBits, ih, hb]
    simp

/-- The product may be taken over any number of bits that holds the second factor. -/
theorem clmul_eq_bits (a b k : Nat) (h : b < 2 ^ k) : clmul a b = clmulBits a b k := by
  have hl : b < 2 ^ (b.log2 + 1) := Nat.lt_log2_self
  rcases Nat.le_total k (b.log2 + 1) with hk | hk
  · obtain ⟨j, hj⟩ := Nat.exists_eq_add_of_le hk
    rw [clmul, hj, clmulBits_stable _ _ _ _ h]
  · obtain ⟨j, hj⟩ := Nat.exists_eq_add_of_le hk
    rw [hj, clmulBits_stable _ _ _ _ hl, clmul]

/-- Two numbers have a common bound by a power of two. -/
theorem exists_common_bound (a b : Nat) : ∃ k, a < 2 ^ k ∧ b < 2 ^ k := by
  refine ⟨a + b, lt_of_lt_of_le Nat.lt_two_pow_self (Nat.pow_le_pow_right (by norm_num) (by omega)),
    lt_of_lt_of_le Nat.lt_two_pow_self (Nat.pow_le_pow_right (by norm_num) (by omega))⟩

theorem clmulBits_xor_left (a a' b k : Nat) :
    clmulBits (a ^^^ a') b k = clmulBits a b k ^^^ clmulBits a' b k := by
  induction k with
  | zero => simp [clmulBits]
  | succ k ih =>
    simp only [clmulBits, ih]
    split
    · rw [Nat.shiftLeft_xor_distrib]; ac_rfl
    · simp

theorem clmulBits_xor_right (a b b' k : Nat) :
    clmulBits a (b ^^^ b') k = clmulBits a b k ^^^ clmulBits a b' k := by
  induction k with
  | zero => simp [clmulBits]
  | succ k ih =>
    simp only [clmulBits, ih, Nat.testBit_xor]
    cases b.testBit k <;> cases b'.testBit k <;> simp
    · ac_rfl
    · ac_rfl
    · have e : ∀ x y z : Nat, x ^^^ z ^^^ (y ^^^ z) = x ^^^ y := by
        intro x y z
        rw [Nat.xor_comm y z, Nat.xor_assoc, ← Nat.xor_assoc z z y, Nat.xor_self, Nat.zero_xor]
      rw [e]

theorem clmul_xor_left (a a' b : Nat) : clmul (a ^^^ a') b = clmul a b ^^^ clmul a' b :=
  clmulBits_xor_left a a' b _

theorem clmul_xor_right (a b b' : Nat) : clmul a (b ^^^ b') = clmul a b ^^^ clmul a b' := by
  obtain ⟨k, h, h'⟩ := exists_common_bound b b'
  rw [clmul_eq_bits a _ k (Nat.xor_lt_two_pow h h'), clmul_eq_bits a b k h, clmul_eq_bits a b' k h',
    clmulBits_xor_right]

@[simp] theorem clmul_zero_left (b : Nat) : clmul 0 b = 0 := clmulBits_zero_left b _

@[simp] theorem clmul_zero_right (a : Nat) : clmul a 0 = 0 := by simp [clmul, clmulBits]

theorem clmulBits_two_pow (a i k : Nat) : clmulBits a (2 ^ i) k = if i < k then a <<< i else 0 := by
  induction k with
  | zero => rfl
  | succ k ih =>
    rw [clmulBits, ih, Nat.testBit_two_pow]
    rcases Nat.lt_trichotomy i k with h | h | h
    · simp [h, Nat.lt_succ_of_lt h, Nat.ne_of_lt h]
    · simp [h]
    · have h1 : ¬ i < k := by omega
      have h2 : ¬ i < k + 1 := by omega
      have h3 : i ≠ k := by omega
      simp [h1, h2, h3]

/-- The product by `x^i` is the shift by `i`. -/
theorem clmul_two_pow (a i : Nat) : clmul a (2 ^ i) = a <<< i := by
  rw [clmul_eq_bits a (2 ^ i) (i + 1) (Nat.pow_lt_pow_right (by norm_num) (by omega)), clmulBits_two_pow]
  simp

theorem clmul_two_pow_left (b i : Nat) : clmul (2 ^ i) b = b <<< i := by
  refine xor_induction (P := fun b => clmul (2 ^ i) b = b <<< i) b (by simp) ?_ ?_ b Nat.lt_two_pow_self
  · intro j _
    show clmul (2 ^ i) (2 ^ j) = 2 ^ j <<< i
    rw [clmul_two_pow, Nat.shiftLeft_eq, Nat.shiftLeft_eq, Nat.mul_comm]
  · intro a b _ _ ha hb
    show clmul (2 ^ i) (a ^^^ b) = (a ^^^ b) <<< i
    rw [clmul_xor_right, ha, hb, Nat.shiftLeft_xor_distrib]

theorem clmul_commutes (a b : Nat) : clmul a b = clmul b a := by
  refine xor_induction (P := fun b => clmul a b = clmul b a) b (by simp) ?_ ?_ b Nat.lt_two_pow_self
  · intro j _
    show clmul a (2 ^ j) = clmul (2 ^ j) a
    rw [clmul_two_pow, clmul_two_pow_left]
  · intro c d _ _ hc hd
    show clmul a (c ^^^ d) = clmul (c ^^^ d) a
    rw [clmul_xor_right, clmul_xor_left, hc, hd]

theorem clmul_shiftLeft_right (a b k : Nat) : clmul a (b <<< k) = clmul a b <<< k := by
  refine xor_induction (P := fun b => clmul a (b <<< k) = clmul a b <<< k) b (by simp) ?_ ?_ b Nat.lt_two_pow_self
  · intro j _
    show clmul a (2 ^ j <<< k) = clmul a (2 ^ j) <<< k
    rw [Nat.shiftLeft_eq, ← pow_add, clmul_two_pow, clmul_two_pow, Nat.shiftLeft_add]
  · intro c d _ _ hc hd
    show clmul a ((c ^^^ d) <<< k) = clmul a (c ^^^ d) <<< k
    rw [Nat.shiftLeft_xor_distrib, clmul_xor_right, clmul_xor_right, hc, hd, Nat.shiftLeft_xor_distrib]

theorem clmul_shiftLeft_left (a b k : Nat) : clmul (a <<< k) b = clmul a b <<< k := by
  rw [clmul_commutes, clmul_shiftLeft_right, clmul_commutes]

theorem clmul_associates (a b c : Nat) : clmul (clmul a b) c = clmul a (clmul b c) := by
  refine xor_induction (P := fun c => clmul (clmul a b) c = clmul a (clmul b c)) c (by simp) ?_ ?_ c
    Nat.lt_two_pow_self
  · intro j _
    show clmul (clmul a b) (2 ^ j) = clmul a (clmul b (2 ^ j))
    rw [clmul_two_pow, clmul_two_pow, clmul_shiftLeft_right]
  · intro d e _ _ hd he
    show clmul (clmul a b) (d ^^^ e) = clmul a (clmul b (d ^^^ e))
    rw [clmul_xor_right, clmul_xor_right, clmul_xor_right, hd, he]

theorem clmulBits_lt (a b m k : Nat) (ha : a < 2 ^ m) : clmulBits a b k < 2 ^ (m + k - 1) := by
  induction k with
  | zero => exact Nat.two_pow_pos _
  | succ k ih =>
    rw [clmulBits]
    refine Nat.xor_lt_two_pow (lt_of_lt_of_le ih (Nat.pow_le_pow_right (by norm_num) (by omega))) ?_
    split
    · rw [Nat.shiftLeft_eq, show m + (k + 1) - 1 = m + k by omega, pow_add]
      exact Nat.mul_lt_mul_of_pos_right ha (Nat.two_pow_pos k)
    · exact Nat.two_pow_pos _

theorem clmul_lt_two_pow (a b m n : Nat) (ha : a < 2 ^ m) (hb : b < 2 ^ n) : clmul a b < 2 ^ (m + n - 1) := by
  rw [clmul_eq_bits a b n hb]
  exact clmulBits_lt a b m n ha

/-! ### The reduction -/

theorem polymodLoop_xor (k p q : Nat) :
    polymodLoop k (p ^^^ q) = polymodLoop k p ^^^ polymodLoop k q := by
  induction k generalizing p q with
  | zero => rfl
  | succ k ih =>
    simp only [polymodLoop, Nat.testBit_xor]
    have e : ∀ x y z : Nat, (x ^^^ z) ^^^ (y ^^^ z) = x ^^^ y := by
      intro x y z
      rw [Nat.xor_comm y z, Nat.xor_assoc, ← Nat.xor_assoc z z y, Nat.xor_self, Nat.zero_xor]
    cases p.testBit (128 + k) <;> cases q.testBit (128 + k) <;> simp only [Bool.xor_false, Bool.xor_true,
      Bool.not_true, Bool.not_false, if_true, if_false, Bool.false_eq_true] <;> rw [← ih]
    · rw [Nat.xor_assoc]
    · congr 1; ac_rfl
    · rw [e]

@[simp] theorem polymodLoop_zero (k : Nat) : polymodLoop k 0 = 0 := by
  induction k with
  | zero => rfl
  | succ k ih => simp [polymodLoop, ih]

theorem reductionPoly_lt : Config.reductionPoly < 2 ^ 129 := by decide

theorem reductionPoly_top : Config.reductionPoly.testBit 128 = true := by decide

/-- One turn of the loop clears the top bit. -/
theorem polymod_turn_lt (p k : Nat) (hp : p < 2 ^ (128 + (k + 1))) :
    (if p.testBit (128 + k) then p ^^^ (Config.reductionPoly <<< k) else p) < 2 ^ (128 + k) := by
  have hP : Config.reductionPoly <<< k < 2 ^ (128 + (k + 1)) := by
    rw [Nat.shiftLeft_eq, show 128 + (k + 1) = 129 + k by omega, pow_add]
    exact Nat.mul_lt_mul_of_pos_right reductionPoly_lt (Nat.two_pow_pos k)
  apply Nat.lt_pow_two_of_testBit
  intro i hi
  rcases Nat.eq_or_lt_of_le hi with h | h
  · subst h
    have ht : (Config.reductionPoly <<< k).testBit (128 + k) = true := by
      rw [Nat.testBit_shiftLeft]; simp [reductionPoly_top]
    split <;> simp_all
  · have hbig : ∀ q, q < 2 ^ (128 + (k + 1)) → q.testBit i = false := fun q hq =>
      Nat.testBit_lt_two_pow (lt_of_lt_of_le hq (Nat.pow_le_pow_right (by norm_num) (by omega)))
    split <;> simp [hbig _ hp, hbig _ hP]

theorem polymodLoop_lt (k p : Nat) (hp : p < 2 ^ (128 + k)) : polymodLoop k p < 2 ^ 128 := by
  induction k generalizing p with
  | zero => exact hp
  | succ k ih => exact ih _ (polymod_turn_lt p k hp)

theorem polymodLoop_small (k p : Nat) (hp : p < 2 ^ 128) : polymodLoop k p = p := by
  induction k with
  | zero => rfl
  | succ k ih =>
    have hb : p.testBit (128 + k) = false :=
      Nat.testBit_lt_two_pow (lt_of_lt_of_le hp (Nat.pow_le_pow_right (by norm_num) (by omega)))
    simp [polymodLoop, hb, ih]

/-- More turns than the number has bits change nothing. -/
theorem polymodLoop_stable (k j p : Nat) (hp : p < 2 ^ (128 + k)) : polymodLoop (k + j) p = polymodLoop k p := by
  induction j with
  | zero => rfl
  | succ j ih =>
    have hb : p.testBit (128 + (k + j)) = false :=
      Nat.testBit_lt_two_pow (lt_of_lt_of_le hp (Nat.pow_le_pow_right (by norm_num) (by omega)))
    rw [← Nat.add_assoc, polymodLoop, hb]
    simpa using ih

/-- Multiples of the reduction polynomial by a power of `x` reduce to zero. -/
theorem polymodLoop_reductionPoly (k j : Nat) (h : j < k) : polymodLoop k (Config.reductionPoly <<< j) = 0 := by
  induction k with
  | zero => omega
  | succ k ih =>
    rcases Nat.eq_or_lt_of_le (Nat.lt_succ_iff.1 h) with he | hl
    · subst he
      have ht : (Config.reductionPoly <<< j).testBit (128 + j) = true := by
        rw [Nat.testBit_shiftLeft]; simp [reductionPoly_top]
      simp [polymodLoop, ht]
    · have hf : (Config.reductionPoly <<< j).testBit (128 + k) = false := by
        apply Nat.testBit_lt_two_pow
        rw [Nat.shiftLeft_eq]
        calc Config.reductionPoly * 2 ^ j < 2 ^ 129 * 2 ^ j :=
              Nat.mul_lt_mul_of_pos_right reductionPoly_lt (Nat.two_pow_pos j)
          _ = 2 ^ (129 + j) := by rw [pow_add]
          _ ≤ 2 ^ (128 + k) := Nat.pow_le_pow_right (by norm_num) (by omega)
      simp [polymodLoop, hf, ih hl]

theorem polymodLoop_multiple (k q : Nat) (hq : q < 2 ^ k) : polymodLoop k (clmul Config.reductionPoly q) = 0 := by
  refine xor_induction (P := fun q => polymodLoop k (clmul Config.reductionPoly q) = 0) k (by simp) ?_ ?_ q hq
  · intro j hj
    show polymodLoop k (clmul Config.reductionPoly (2 ^ j)) = 0
    rw [clmul_two_pow, polymodLoop_reductionPoly k j hj]
  · intro a b _ _ ha hb
    show polymodLoop k (clmul Config.reductionPoly (a ^^^ b)) = 0
    rw [clmul_xor_right, polymodLoop_xor, ha, hb, Nat.xor_self]

/-- A number and its remainder differ by a multiple of the reduction polynomial. -/
theorem polymodLoop_remainder (k p : Nat) :
    ∃ q < 2 ^ k, p = polymodLoop k p ^^^ clmul Config.reductionPoly q := by
  induction k generalizing p with
  | zero => exact ⟨0, by norm_num, by simp [polymodLoop]⟩
  | succ k ih =>
    obtain ⟨q, hq, h⟩ := ih (if p.testBit (128 + k) then p ^^^ (Config.reductionPoly <<< k) else p)
    have hq' : q < 2 ^ (k + 1) := lt_of_lt_of_le hq (Nat.pow_le_pow_right (by norm_num) (by omega))
    cases hb : p.testBit (128 + k)
    · refine ⟨q, hq', ?_⟩
      simpa [polymodLoop, hb] using h
    · refine ⟨q ^^^ 2 ^ k, Nat.xor_lt_two_pow hq' (Nat.pow_lt_pow_right (by norm_num) (by omega)), ?_⟩
      simp only [hb, if_true] at h
      simp only [polymodLoop, hb, if_true]
      rw [clmul_xor_right, clmul_two_pow, ← Nat.xor_assoc, ← h, Nat.xor_assoc, Nat.xor_self, Nat.xor_zero]

theorem polymod_xor (p q : Nat) : polymod (p ^^^ q) = polymod p ^^^ polymod q := polymodLoop_xor 127 p q

@[simp] theorem polymod_zero : polymod 0 = 0 := polymodLoop_zero 127

theorem polymod_lt (p : Nat) (hp : p < 2 ^ 255) : polymod p < 2 ^ 128 := polymodLoop_lt 127 p hp

theorem polymod_small (p : Nat) (hp : p < 2 ^ 128) : polymod p = p := polymodLoop_small 127 p hp

/-- Reducing a factor first does not change the reduced product. -/
theorem polymod_clmul_polymod (p c : Nat) (hp : p < 2 ^ 255) (hc : c < 2 ^ 128) :
    polymod (clmul (polymod p) c) = polymodLoop 255 (clmul p c) := by
  obtain ⟨q, hq, h⟩ := polymodLoop_remainder 127 p
  have hsmall : clmul (polymod p) c < 2 ^ (128 + 127) :=
    clmul_lt_two_pow _ _ 128 128 (polymod_lt p hp) hc
  have hmul : clmul q c < 2 ^ 255 :=
    lt_of_lt_of_le (clmul_lt_two_pow q c 127 128 hq hc) (Nat.pow_le_pow_right (by norm_num) (by norm_num))
  have e : clmul p c = clmul (polymod p) c ^^^ clmul Config.reductionPoly (clmul q c) := by
    conv_lhs => rw [h]
    rw [clmul_xor_left, clmul_associates, polymod]
  rw [e, polymodLoop_xor, polymodLoop_multiple 255 _ hmul, Nat.xor_zero, polymodLoop_stable 127 128 _ hsmall,
    polymod]

/-! ### The product in the field -/

theorem poly_gfMul (A B : Block) : poly (gfMul A B) = polymod (clmul (poly A) (poly B)) :=
  poly_unpoly _ (polymod_lt _ (clmul_lt_two_pow _ _ 128 128 (poly_lt A) (poly_lt B)))

end Sys2Proof.Machine
end

