-- ==== Sys2Proof/Laws/PerInstr.lean ====
section
/-! SUPPORT. One lemma per command for the family TableRow of LAWS.json: the encoded word stands in the command's row of the
command table. -/

namespace Sys2Proof.Laws.TableRow

open Sys2Proof

/-- The encoded word of a well-formed command matches its row of the command table (30_encoding.md R75), and its low byte is
the opcode. -/
def Statement (i : Instr) : Prop :=
  i.wellFormed = true → encode i &&& i.mask = i.matchWord ∧ opcodeField (encode i) = i.opcode

theorem masked_low_byte (opc f1 f2 f3 : Byte) :
    commandWord opc f1 f2 f3 &&& 0x000000FF#32 = opc.setWidth 32 := by
  have e : (0x000000FF#32 : Word) = (0xFF#8).setWidth 32 := by decide
  apply BitVec.eq_of_getLsbD_eq
  intro i hi
  rw [e]
  have hc : ∀ j, (0xFF#8).getLsbD j = decide (j < 8) := by
    intro j
    rcases Nat.lt_or_ge j 8 with h | h
    · interval_cases j <;> decide
    · rw [BitVec.getLsbD_of_ge _ _ h]; simp [h]
  simp only [commandWord, BitVec.getLsbD_and, BitVec.getLsbD_or, BitVec.getLsbD_shiftLeft, BitVec.getLsbD_setWidth, hc]
  rcases Nat.lt_or_ge i 8 with h | h
  · have h1 : i < 16 := by omega
    have h2 : i < 24 := by omega
    simp [hi, h, h1, h2]
  · have h3 : ¬ i < 8 := by omega
    simp [h3, BitVec.getLsbD_of_ge opc i h]

theorem masked_low_half (opc f1 : Byte) :
    commandWord opc f1 0 0 &&& 0xFFFF00FF#32 = opc.setWidth 32 := by
  revert opc f1
  intro opc f1
  have e : (0xFFFF00FF#32 : Word) = 0x000000FF#32 ||| 0xFFFF0000#32 := by decide
  have hz : commandWord opc f1 0 0 &&& 0xFFFF0000#32 = 0#32 := by
    apply BitVec.eq_of_getLsbD_eq
    intro i hi
    simp only [commandWord, BitVec.getLsbD_and, BitVec.getLsbD_or, BitVec.getLsbD_shiftLeft, BitVec.getLsbD_setWidth]
    rcases Nat.lt_or_ge i 16 with h | h
    · have : (0xFFFF0000#32).getLsbD i = false := by interval_cases i <;> decide
      simp [this]
    · have h1 : opc.getLsbD i = false := BitVec.getLsbD_of_ge _ _ (by omega)
      have h2 : f1.getLsbD (i - 8) = false := BitVec.getLsbD_of_ge _ _ (by omega)
      simp [h1, h2]
  rw [e, BitVec.and_or_distrib_left, hz, masked_low_byte]
  simp

theorem clear : Statement .clear := fun _ => by decide

theorem gfmac (xlen : Byte) : Statement (.gfmac xlen) := fun _ =>
  ⟨masked_low_half 0x10#8 xlen, opcodeField_commandWord _ _ _ _⟩

theorem pvmac (xlen : Byte) : Statement (.pvmac xlen) := fun _ =>
  ⟨masked_low_half 0x11#8 xlen, opcodeField_commandWord _ _ _ _⟩

theorem pvkey : Statement .pvkey := fun _ => by decide

theorem cy2enc (nlen alen dlen : Byte) : Statement (.cy2enc nlen alen dlen) := fun _ =>
  ⟨masked_low_byte 0x20#8 nlen alen dlen, opcodeField_commandWord _ _ _ _⟩

theorem cy2dec (nlen alen dlen : Byte) : Statement (.cy2dec nlen alen dlen) := fun _ =>
  ⟨masked_low_byte 0x21#8 nlen alen dlen, opcodeField_commandWord _ _ _ _⟩

end Sys2Proof.Laws.TableRow
end

