-- ==== Sys2Proof/Laws/State.lean ====
section
/-! SUPPORT. One lemma per field per named update of the state, all true by rfl, so that no proof unfolds a record update. -/

namespace Sys2Proof.Machine

@[simp] theorem raise_eq_complete (rc : ResultCode) (s : State) : raise rc s = complete rc s := rfl

@[simp] theorem complete_cmd (rc : ResultCode) (s : State) : (complete rc s).cmd = s.cmd := rfl
@[simp] theorem complete_status (rc : ResultCode) (s : State) : (complete rc s).status = s.status.completed rc := rfl
@[simp] theorem complete_ie (rc : ResultCode) (s : State) : (complete rc s).ie = s.ie := rfl
@[simp] theorem complete_y (rc : ResultCode) (s : State) : (complete rc s).y = s.y := rfl
@[simp] theorem complete_h (rc : ResultCode) (s : State) : (complete rc s).h = s.h := rfl
@[simp] theorem complete_x (rc : ResultCode) (s : State) : (complete rc s).x = s.x := rfl
@[simp] theorem complete_n (rc : ResultCode) (s : State) : (complete rc s).n = s.n := rfl
@[simp] theorem complete_a (rc : ResultCode) (s : State) : (complete rc s).a = s.a := rfl
@[simp] theorem complete_din (rc : ResultCode) (s : State) : (complete rc s).din = s.din := rfl
@[simp] theorem complete_tagin (rc : ResultCode) (s : State) : (complete rc s).tagin = s.tagin := rfl
@[simp] theorem complete_dout (rc : ResultCode) (s : State) : (complete rc s).dout = s.dout := rfl
@[simp] theorem complete_tagout (rc : ResultCode) (s : State) : (complete rc s).tagout = s.tagout := rfl
@[simp] theorem complete_phase (rc : ResultCode) (s : State) : (complete rc s).phase = .idle := rfl
@[simp] theorem complete_tY0 (rc : ResultCode) (s : State) : (complete rc s).tY0 = 0 := rfl
@[simp] theorem complete_tY1 (rc : ResultCode) (s : State) : (complete rc s).tY1 = 0 := rfl
@[simp] theorem complete_tM (rc : ResultCode) (s : State) : (complete rc s).tM = 0 := rfl
@[simp] theorem complete_tT (rc : ResultCode) (s : State) : (complete rc s).tT = 0 := rfl
@[simp] theorem complete_creq (rc : ResultCode) (s : State) : (complete rc s).creq = .cleared := rfl
@[simp] theorem complete_crsp (rc : ResultCode) (s : State) : (complete rc s).crsp = .cleared := rfl
@[simp] theorem complete_hostQueue (rc : ResultCode) (s : State) : (complete rc s).hostQueue = s.hostQueue := rfl
@[simp] theorem complete_schedule (rc : ResultCode) (s : State) : (complete rc s).schedule = s.schedule := rfl
@[simp] theorem complete_reads (rc : ResultCode) (s : State) : (complete rc s).reads = s.reads := rfl

@[simp] theorem accept_cmd (w : Word) (s : State) : (accept w s).cmd = w := rfl
@[simp] theorem accept_status (w : Word) (s : State) : (accept w s).status = s.status.accepted := rfl
@[simp] theorem accept_ie (w : Word) (s : State) : (accept w s).ie = s.ie := rfl
@[simp] theorem accept_y (w : Word) (s : State) : (accept w s).y = s.y := rfl
@[simp] theorem accept_h (w : Word) (s : State) : (accept w s).h = s.h := rfl
@[simp] theorem accept_x (w : Word) (s : State) : (accept w s).x = s.x := rfl
@[simp] theorem accept_n (w : Word) (s : State) : (accept w s).n = s.n := rfl
@[simp] theorem accept_a (w : Word) (s : State) : (accept w s).a = s.a := rfl
@[simp] theorem accept_din (w : Word) (s : State) : (accept w s).din = s.din := rfl
@[simp] theorem accept_tagin (w : Word) (s : State) : (accept w s).tagin = s.tagin := rfl
@[simp] theorem accept_dout (w : Word) (s : State) : (accept w s).dout = s.dout := rfl
@[simp] theorem accept_tagout (w : Word) (s : State) : (accept w s).tagout = s.tagout := rfl
@[simp] theorem accept_phase (w : Word) (s : State) : (accept w s).phase = .dispatch := rfl
@[simp] theorem accept_tY0 (w : Word) (s : State) : (accept w s).tY0 = s.tY0 := rfl
@[simp] theorem accept_tY1 (w : Word) (s : State) : (accept w s).tY1 = s.tY1 := rfl
@[simp] theorem accept_tM (w : Word) (s : State) : (accept w s).tM = s.tM := rfl
@[simp] theorem accept_tT (w : Word) (s : State) : (accept w s).tT = s.tT := rfl
@[simp] theorem accept_creq (w : Word) (s : State) : (accept w s).creq = s.creq := rfl
@[simp] theorem accept_crsp (w : Word) (s : State) : (accept w s).crsp = s.crsp := rfl
@[simp] theorem accept_hostQueue (w : Word) (s : State) : (accept w s).hostQueue = s.hostQueue := rfl
@[simp] theorem accept_schedule (w : Word) (s : State) : (accept w s).schedule = s.schedule := rfl
@[simp] theorem accept_reads (w : Word) (s : State) : (accept w s).reads = s.reads := rfl

@[simp] theorem dropWrite_cmd (s : State) : (dropWrite s).cmd = s.cmd := rfl
@[simp] theorem dropWrite_status (s : State) : (dropWrite s).status = s.status.dropped := rfl
@[simp] theorem dropWrite_ie (s : State) : (dropWrite s).ie = s.ie := rfl
@[simp] theorem dropWrite_y (s : State) : (dropWrite s).y = s.y := rfl
@[simp] theorem dropWrite_h (s : State) : (dropWrite s).h = s.h := rfl
@[simp] theorem dropWrite_x (s : State) : (dropWrite s).x = s.x := rfl
@[simp] theorem dropWrite_n (s : State) : (dropWrite s).n = s.n := rfl
@[simp] theorem dropWrite_a (s : State) : (dropWrite s).a = s.a := rfl
@[simp] theorem dropWrite_din (s : State) : (dropWrite s).din = s.din := rfl
@[simp] theorem dropWrite_tagin (s : State) : (dropWrite s).tagin = s.tagin := rfl
@[simp] theorem dropWrite_dout (s : State) : (dropWrite s).dout = s.dout := rfl
@[simp] theorem dropWrite_tagout (s : State) : (dropWrite s).tagout = s.tagout := rfl
@[simp] theorem dropWrite_phase (s : State) : (dropWrite s).phase = s.phase := rfl
@[simp] theorem dropWrite_tY0 (s : State) : (dropWrite s).tY0 = s.tY0 := rfl
@[simp] theorem dropWrite_tY1 (s : State) : (dropWrite s).tY1 = s.tY1 := rfl
@[simp] theorem dropWrite_tM (s : State) : (dropWrite s).tM = s.tM := rfl
@[simp] theorem dropWrite_tT (s : State) : (dropWrite s).tT = s.tT := rfl
@[simp] theorem dropWrite_creq (s : State) : (dropWrite s).creq = s.creq := rfl
@[simp] theorem dropWrite_crsp (s : State) : (dropWrite s).crsp = s.crsp := rfl
@[simp] theorem dropWrite_hostQueue (s : State) : (dropWrite s).hostQueue = s.hostQueue := rfl
@[simp] theorem dropWrite_schedule (s : State) : (dropWrite s).schedule = s.schedule := rfl
@[simp] theorem dropWrite_reads (s : State) : (dropWrite s).reads = s.reads := rfl

@[simp] theorem clearData_cmd (s : State) : (clearData s).cmd = s.cmd := rfl
@[simp] theorem clearData_status (s : State) : (clearData s).status = s.status := rfl
@[simp] theorem clearData_ie (s : State) : (clearData s).ie = s.ie := rfl
@[simp] theorem clearData_y (s : State) : (clearData s).y = 0 := rfl
@[simp] theorem clearData_h (s : State) : (clearData s).h = 0 := rfl
@[simp] theorem clearData_x (s : State) : (clearData s).x = 0 := rfl
@[simp] theorem clearData_n (s : State) : (clearData s).n = 0 := rfl
@[simp] theorem clearData_a (s : State) : (clearData s).a = 0 := rfl
@[simp] theorem clearData_din (s : State) : (clearData s).din = 0 := rfl
@[simp] theorem clearData_tagin (s : State) : (clearData s).tagin = 0 := rfl
@[simp] theorem clearData_dout (s : State) : (clearData s).dout = 0 := rfl
@[simp] theorem clearData_tagout (s : State) : (clearData s).tagout = 0 := rfl
@[simp] theorem clearData_phase (s : State) : (clearData s).phase = s.phase := rfl
@[simp] theorem clearData_tY0 (s : State) : (clearData s).tY0 = s.tY0 := rfl
@[simp] theorem clearData_tY1 (s : State) : (clearData s).tY1 = s.tY1 := rfl
@[simp] theorem clearData_tM (s : State) : (clearData s).tM = s.tM := rfl
@[simp] theorem clearData_tT (s : State) : (clearData s).tT = s.tT := rfl
@[simp] theorem clearData_creq (s : State) : (clearData s).creq = s.creq := rfl
@[simp] theorem clearData_crsp (s : State) : (clearData s).crsp = s.crsp := rfl
@[simp] theorem clearData_hostQueue (s : State) : (clearData s).hostQueue = s.hostQueue := rfl
@[simp] theorem clearData_schedule (s : State) : (clearData s).schedule = s.schedule := rfl
@[simp] theorem clearData_reads (s : State) : (clearData s).reads = s.reads := rfl

@[simp] theorem popSchedule_cmd (s : State) : (popSchedule s).cmd = s.cmd := rfl
@[simp] theorem popSchedule_status (s : State) : (popSchedule s).status = s.status := rfl
@[simp] theorem popSchedule_ie (s : State) : (popSchedule s).ie = s.ie := rfl
@[simp] theorem popSchedule_y (s : State) : (popSchedule s).y = s.y := rfl
@[simp] theorem popSchedule_h (s : State) : (popSchedule s).h = s.h := rfl
@[simp] theorem popSchedule_x (s : State) : (popSchedule s).x = s.x := rfl
@[simp] theorem popSchedule_n (s : State) : (popSchedule s).n = s.n := rfl
@[simp] theorem popSchedule_a (s : State) : (popSchedule s).a = s.a := rfl
@[simp] theorem popSchedule_din (s : State) : (popSchedule s).din = s.din := rfl
@[simp] theorem popSchedule_tagin (s : State) : (popSchedule s).tagin = s.tagin := rfl
@[simp] theorem popSchedule_dout (s : State) : (popSchedule s).dout = s.dout := rfl
@[simp] theorem popSchedule_tagout (s : State) : (popSchedule s).tagout = s.tagout := rfl
@[simp] theorem popSchedule_phase (s : State) : (popSchedule s).phase = s.phase := rfl
@[simp] theorem popSchedule_tY0 (s : State) : (popSchedule s).tY0 = s.tY0 := rfl
@[simp] theorem popSchedule_tY1 (s : State) : (popSchedule s).tY1 = s.tY1 := rfl
@[simp] theorem popSchedule_tM (s : State) : (popSchedule s).tM = s.tM := rfl
@[simp] theorem popSchedule_tT (s : State) : (popSchedule s).tT = s.tT := rfl
@[simp] theorem popSchedule_creq (s : State) : (popSchedule s).creq = s.creq := rfl
@[simp] theorem popSchedule_crsp (s : State) : (popSchedule s).crsp = s.crsp := rfl
@[simp] theorem popSchedule_hostQueue (s : State) : (popSchedule s).hostQueue = s.hostQueue := rfl
@[simp] theorem popSchedule_schedule (s : State) : (popSchedule s).schedule = s.schedule.tail := rfl
@[simp] theorem popSchedule_reads (s : State) : (popSchedule s).reads = s.reads := rfl

@[simp] theorem hostWait_cmd (s : State) : (hostWait s).cmd = s.cmd := rfl
@[simp] theorem hostWait_status (s : State) : (hostWait s).status = s.status := rfl
@[simp] theorem hostWait_ie (s : State) : (hostWait s).ie = s.ie := rfl
@[simp] theorem hostWait_y (s : State) : (hostWait s).y = s.y := rfl
@[simp] theorem hostWait_h (s : State) : (hostWait s).h = s.h := rfl
@[simp] theorem hostWait_x (s : State) : (hostWait s).x = s.x := rfl
@[simp] theorem hostWait_n (s : State) : (hostWait s).n = s.n := rfl
@[simp] theorem hostWait_a (s : State) : (hostWait s).a = s.a := rfl
@[simp] theorem hostWait_din (s : State) : (hostWait s).din = s.din := rfl
@[simp] theorem hostWait_tagin (s : State) : (hostWait s).tagin = s.tagin := rfl
@[simp] theorem hostWait_dout (s : State) : (hostWait s).dout = s.dout := rfl
@[simp] theorem hostWait_tagout (s : State) : (hostWait s).tagout = s.tagout := rfl
@[simp] theorem hostWait_phase (s : State) : (hostWait s).phase = s.phase := rfl
@[simp] theorem hostWait_tY0 (s : State) : (hostWait s).tY0 = s.tY0 := rfl
@[simp] theorem hostWait_tY1 (s : State) : (hostWait s).tY1 = s.tY1 := rfl
@[simp] theorem hostWait_tM (s : State) : (hostWait s).tM = s.tM := rfl
@[simp] theorem hostWait_tT (s : State) : (hostWait s).tT = s.tT := rfl
@[simp] theorem hostWait_creq (s : State) : (hostWait s).creq = s.creq := rfl
@[simp] theorem hostWait_crsp (s : State) : (hostWait s).crsp = s.crsp := rfl
@[simp] theorem hostWait_hostQueue (s : State) : (hostWait s).hostQueue = (if s.status.busy then .wait :: s.hostQueue else s.hostQueue) := rfl
@[simp] theorem hostWait_schedule (s : State) : (hostWait s).schedule = s.schedule := rfl
@[simp] theorem hostWait_reads (s : State) : (hostWait s).reads = (1, .word s.status.word) :: s.reads := rfl

@[simp] theorem aeadWait1_cmd (M : Block) (d : Nat) (s : State) : (aeadWait1 M d s).cmd = s.cmd := rfl
@[simp] theorem aeadWait1_status (M : Block) (d : Nat) (s : State) : (aeadWait1 M d s).status = s.status := rfl
@[simp] theorem aeadWait1_ie (M : Block) (d : Nat) (s : State) : (aeadWait1 M d s).ie = s.ie := rfl
@[simp] theorem aeadWait1_y (M : Block) (d : Nat) (s : State) : (aeadWait1 M d s).y = s.y := rfl
@[simp] theorem aeadWait1_h (M : Block) (d : Nat) (s : State) : (aeadWait1 M d s).h = s.h := rfl
@[simp] theorem aeadWait1_x (M : Block) (d : Nat) (s : State) : (aeadWait1 M d s).x = s.x := rfl
@[simp] theorem aeadWait1_n (M : Block) (d : Nat) (s : State) : (aeadWait1 M d s).n = s.n := rfl
@[simp] theorem aeadWait1_a (M : Block) (d : Nat) (s : State) : (aeadWait1 M d s).a = s.a := rfl
@[simp] theorem aeadWait1_din (M : Block) (d : Nat) (s : State) : (aeadWait1 M d s).din = s.din := rfl
@[simp] theorem aeadWait1_tagin (M : Block) (d : Nat) (s : State) : (aeadWait1 M d s).tagin = s.tagin := rfl
@[simp] theorem aeadWait1_dout (M : Block) (d : Nat) (s : State) : (aeadWait1 M d s).dout = s.dout := rfl
@[simp] theorem aeadWait1_tagout (M : Block) (d : Nat) (s : State) : (aeadWait1 M d s).tagout = s.tagout := rfl
@[simp] theorem aeadWait1_phase (M : Block) (d : Nat) (s : State) : (aeadWait1 M d s).phase = .aeWait2 := rfl
@[simp] theorem aeadWait1_tY0 (M : Block) (d : Nat) (s : State) : (aeadWait1 M d s).tY0 = s.crsp.out0 := rfl
@[simp] theorem aeadWait1_tY1 (M : Block) (d : Nat) (s : State) : (aeadWait1 M d s).tY1 = s.crsp.out1 := rfl
@[simp] theorem aeadWait1_tM (M : Block) (d : Nat) (s : State) : (aeadWait1 M d s).tM = M := rfl
@[simp] theorem aeadWait1_tT (M : Block) (d : Nat) (s : State) : (aeadWait1 M d s).tT = tagPreimage s.crsp.out0 M d := rfl
@[simp] theorem aeadWait1_creq (M : Block) (d : Nat) (s : State) : (aeadWait1 M d s).creq = ⟨true, .slot1, tagPreimage s.crsp.out0 M d, tagPreimage s.crsp.out0 M d⟩ := rfl
@[simp] theorem aeadWait1_crsp (M : Block) (d : Nat) (s : State) : (aeadWait1 M d s).crsp = { s.crsp with valid := false } := rfl
@[simp] theorem aeadWait1_hostQueue (M : Block) (d : Nat) (s : State) : (aeadWait1 M d s).hostQueue = s.hostQueue := rfl
@[simp] theorem aeadWait1_schedule (M : Block) (d : Nat) (s : State) : (aeadWait1 M d s).schedule = s.schedule := rfl
@[simp] theorem aeadWait1_reads (M : Block) (d : Nat) (s : State) : (aeadWait1 M d s).reads = s.reads := rfl

@[simp] theorem encryptFinish_cmd (d : Nat) (s : State) : (encryptFinish d s).cmd = s.cmd := rfl
@[simp] theorem encryptFinish_status (d : Nat) (s : State) : (encryptFinish d s).status = s.status.completed .ok := rfl
@[simp] theorem encryptFinish_ie (d : Nat) (s : State) : (encryptFinish d s).ie = s.ie := rfl
@[simp] theorem encryptFinish_y (d : Nat) (s : State) : (encryptFinish d s).y = s.y := rfl
@[simp] theorem encryptFinish_h (d : Nat) (s : State) : (encryptFinish d s).h = s.h := rfl
@[simp] theorem encryptFinish_x (d : Nat) (s : State) : (encryptFinish d s).x = s.x := rfl
@[simp] theorem encryptFinish_n (d : Nat) (s : State) : (encryptFinish d s).n = s.n := rfl
@[simp] theorem encryptFinish_a (d : Nat) (s : State) : (encryptFinish d s).a = s.a := rfl
@[simp] theorem encryptFinish_din (d : Nat) (s : State) : (encryptFinish d s).din = s.din := rfl
@[simp] theorem encryptFinish_tagin (d : Nat) (s : State) : (encryptFinish d s).tagin = s.tagin := rfl
@[simp] theorem encryptFinish_dout (d : Nat) (s : State) : (encryptFinish d s).dout = cipherBody s.tM s.tY0 s.tY1 d := rfl
@[simp] theorem encryptFinish_tagout (d : Nat) (s : State) : (encryptFinish d s).tagout = s.crsp.out0 := rfl
@[simp] theorem encryptFinish_phase (d : Nat) (s : State) : (encryptFinish d s).phase = .idle := rfl
@[simp] theorem encryptFinish_tY0 (d : Nat) (s : State) : (encryptFinish d s).tY0 = 0 := rfl
@[simp] theorem encryptFinish_tY1 (d : Nat) (s : State) : (encryptFinish d s).tY1 = 0 := rfl
@[simp] theorem encryptFinish_tM (d : Nat) (s : State) : (encryptFinish d s).tM = 0 := rfl
@[simp] theorem encryptFinish_tT (d : Nat) (s : State) : (encryptFinish d s).tT = 0 := rfl
@[simp] theorem encryptFinish_creq (d : Nat) (s : State) : (encryptFinish d s).creq = .cleared := rfl
@[simp] theorem encryptFinish_crsp (d : Nat) (s : State) : (encryptFinish d s).crsp = .cleared := rfl
@[simp] theorem encryptFinish_hostQueue (d : Nat) (s : State) : (encryptFinish d s).hostQueue = s.hostQueue := rfl
@[simp] theorem encryptFinish_schedule (d : Nat) (s : State) : (encryptFinish d s).schedule = s.schedule := rfl
@[simp] theorem encryptFinish_reads (d : Nat) (s : State) : (encryptFinish d s).reads = s.reads := rfl

@[simp] theorem resetBlock_cmd (s : State) : (resetBlock s).cmd = State.reset.cmd := rfl
@[simp] theorem resetBlock_status (s : State) : (resetBlock s).status = State.reset.status := rfl
@[simp] theorem resetBlock_ie (s : State) : (resetBlock s).ie = State.reset.ie := rfl
@[simp] theorem resetBlock_y (s : State) : (resetBlock s).y = State.reset.y := rfl
@[simp] theorem resetBlock_h (s : State) : (resetBlock s).h = State.reset.h := rfl
@[simp] theorem resetBlock_x (s : State) : (resetBlock s).x = State.reset.x := rfl
@[simp] theorem resetBlock_n (s : State) : (resetBlock s).n = State.reset.n := rfl
@[simp] theorem resetBlock_a (s : State) : (resetBlock s).a = State.reset.a := rfl
@[simp] theorem resetBlock_din (s : State) : (resetBlock s).din = State.reset.din := rfl
@[simp] theorem resetBlock_tagin (s : State) : (resetBlock s).tagin = State.reset.tagin := rfl
@[simp] theorem resetBlock_dout (s : State) : (resetBlock s).dout = State.reset.dout := rfl
@[simp] theorem resetBlock_tagout (s : State) : (resetBlock s).tagout = State.reset.tagout := rfl
@[simp] theorem resetBlock_phase (s : State) : (resetBlock s).phase = State.reset.phase := rfl
@[simp] theorem resetBlock_tY0 (s : State) : (resetBlock s).tY0 = State.reset.tY0 := rfl
@[simp] theorem resetBlock_tY1 (s : State) : (resetBlock s).tY1 = State.reset.tY1 := rfl
@[simp] theorem resetBlock_tM (s : State) : (resetBlock s).tM = State.reset.tM := rfl
@[simp] theorem resetBlock_tT (s : State) : (resetBlock s).tT = State.reset.tT := rfl
@[simp] theorem resetBlock_creq (s : State) : (resetBlock s).creq = State.reset.creq := rfl
@[simp] theorem resetBlock_crsp (s : State) : (resetBlock s).crsp = State.reset.crsp := rfl
@[simp] theorem resetBlock_hostQueue (s : State) : (resetBlock s).hostQueue = s.hostQueue := rfl
@[simp] theorem resetBlock_schedule (s : State) : (resetBlock s).schedule = s.schedule := rfl
@[simp] theorem resetBlock_reads (s : State) : (resetBlock s).reads = s.reads := rfl

@[simp] theorem Status.accepted_busy (st : Status) : st.accepted.busy = true := rfl
@[simp] theorem Status.accepted_done (st : Status) : st.accepted.done = false := rfl
@[simp] theorem Status.accepted_ovr (st : Status) : st.accepted.ovr = st.ovr := rfl
@[simp] theorem Status.accepted_rc (st : Status) : st.accepted.rc = 0x00#8 := rfl
@[simp] theorem Status.completed_busy (st : Status) (rc : ResultCode) : (st.completed rc).busy = false := rfl
@[simp] theorem Status.completed_done (st : Status) (rc : ResultCode) : (st.completed rc).done = true := rfl
@[simp] theorem Status.completed_ovr (st : Status) (rc : ResultCode) : (st.completed rc).ovr = st.ovr := rfl
@[simp] theorem Status.completed_rc (st : Status) (rc : ResultCode) : (st.completed rc).rc = rc.byte := rfl
@[simp] theorem Status.dropped_busy (st : Status) : st.dropped.busy = st.busy := rfl
@[simp] theorem Status.dropped_done (st : Status) : st.dropped.done = st.done := rfl
@[simp] theorem Status.dropped_ovr (st : Status) : st.dropped.ovr = true := rfl
@[simp] theorem Status.dropped_rc (st : Status) : st.dropped.rc = st.rc := rfl
@[simp] theorem Status.clearOnWrite_busy (st : Status) (v : Word) : (st.clearOnWrite v).busy = st.busy := rfl
@[simp] theorem Status.clearOnWrite_done (st : Status) (v : Word) : (st.clearOnWrite v).done = (st.done && !v.getLsbD 1) := rfl
@[simp] theorem Status.clearOnWrite_ovr (st : Status) (v : Word) : (st.clearOnWrite v).ovr = (st.ovr && !v.getLsbD 2) := rfl
@[simp] theorem Status.clearOnWrite_rc (st : Status) (v : Word) : (st.clearOnWrite v).rc = st.rc := rfl

end Sys2Proof.Machine
end

