-- ==== Sys2Proof/Laws/Steps.lean ====
section
/-! SUPPORT. What each shared operation, each command and each agent's move can do, said once; later proofs cite these and do
not unfold the machine. -/

namespace Sys2Proof.Machine

theorem onDispatch_next {s t u : State} (h : onDispatch s t = .next u) :
    (s.phase = .dispatch ∧ u = t) ∨ (s.phase ≠ .dispatch ∧ u = s) := by
  unfold onDispatch at h
  split at h
  · cases h; exact .inl ⟨‹_›, rfl⟩
  · cases h; exact .inr ⟨‹_›, rfl⟩

theorem onAnswer_next {s t u : State} (h : onAnswer s t = .next u) :
    (s.crsp.valid = true ∧ u = t) ∨ (s.crsp.valid = false ∧ u = s) := by
  unfold onAnswer at h
  split at h
  · cases h; exact .inl ⟨‹_›, rfl⟩
  · cases h; exact .inr ⟨by simp_all, rfl⟩

/-- The three outcomes of the Field Unit's absorbing commands (40_field_unit.md R100). -/
theorem absorb_cases (step : Block → Block → Block → Block) (xlen : Byte) (s : State) :
    (16 < xlen.toNat ∧ absorb step xlen s = complete .lengthError s) ∨
    (xlen.toNat = 0 ∧ absorb step xlen s = complete .ok s) ∨
    (0 < xlen.toNat ∧ xlen.toNat ≤ 16 ∧
      absorb step xlen s = complete .ok { s with y := step s.y s.h (pad0 s.x xlen.toNat) }) := by
  by_cases h : 16 < xlen.toNat
  · exact .inl ⟨h, by simp [absorb, xlenTooLong, Config.lenMax, h]⟩
  · by_cases h0 : xlen = 0#8
    · exact .inr (.inl ⟨by simp [h0], by simp [absorb, xlenTooLong, Config.lenMax, h0]⟩)
    · have hp : 0 < xlen.toNat := by
        rcases Nat.eq_zero_or_pos xlen.toNat with hz | hz
        · exact absurd (BitVec.eq_of_toNat_eq (by simpa using hz)) h0
        · exact hz
      exact .inr (.inr ⟨hp, by omega, by simp [absorb, xlenTooLong, Config.lenMax, h, h0]⟩)

theorem lengthsBad_iff (nlen alen dlen : Byte) :
    lengthsBad nlen alen dlen = true ↔ 16 < dlen.toNat ∨ 15 < nlen.toNat + alen.toNat := by
  simp only [lengthsBad, Bool.or_eq_true, decide_eq_true_eq]
  exact Iff.rfl

theorem lengthsBad_eq_false (nlen alen dlen : Byte) :
    lengthsBad nlen alen dlen = false ↔ dlen.toNat ≤ 16 ∧ nlen.toNat + alen.toNat ≤ 15 := by
  simp only [lengthsBad, Bool.or_eq_false_iff, decide_eq_false_iff_not, not_lt]
  exact Iff.rfl

/-- What the sequencer's move on a command can do: nothing, or one of these. -/
inductive SequencerEffect (i : Instr) (s : State) : State → Prop
  /-- Not enabled. -/
  | still : (s.phase ≠ .dispatch) → SequencerEffect i s s
  /-- Completed with no register written: a length error, or nothing to absorb. -/
  | bare (rc : ResultCode) : s.phase = .dispatch → (rc = .lengthError ∨ rc = .ok) → SequencerEffect i s (complete rc s)
  | cleared : s.phase = .dispatch → i = .clear → SequencerEffect i s (complete .ok (clearData s))
  | accumulated (xlen : Byte) (v : Block) : s.phase = .dispatch → (i = .gfmac xlen ∨ i = .pvmac xlen) →
      SequencerEffect i s (complete .ok { s with y := v })
  | keyed (v : Block) : s.phase = .dispatch → i = .pvkey → SequencerEffect i s (complete .ok { s with h := v })
  | requested (nlen alen dlen : Byte) : s.phase = .dispatch → (i = .cy2enc nlen alen dlen ∨ i = .cy2dec nlen alen dlen) →
      lengthsBad nlen alen dlen = false →
      SequencerEffect i s { s with
        creq := ⟨true, .slot0, blockP0 s nlen alen dlen, blockP1 s nlen alen dlen⟩, phase := .aeWait1 }
  | answered (nlen alen dlen : Byte) (M : Block) : s.phase = .aeWait1 → s.crsp.valid = true →
      ((i = .cy2enc nlen alen dlen ∧ M = messageOfEncryption s dlen.toNat) ∨
        (i = .cy2dec nlen alen dlen ∧ M = messageOfDecryption s dlen.toNat)) →
      SequencerEffect i s (aeadWait1 M dlen.toNat s)
  | encrypted (nlen alen dlen : Byte) : s.phase = .aeWait2 → s.crsp.valid = true → i = .cy2enc nlen alen dlen →
      SequencerEffect i s (encryptFinish dlen.toNat s)
  | opened (nlen alen dlen : Byte) : s.phase = .aeWait2 → s.crsp.valid = true → i = .cy2dec nlen alen dlen →
      ctDiff s.crsp.out0 s.tagin = 0#8 → SequencerEffect i s (complete .ok { s with dout := s.tM })
  | rejected (nlen alen dlen : Byte) : s.phase = .aeWait2 → s.crsp.valid = true → i = .cy2dec nlen alen dlen →
      ctDiff s.crsp.out0 s.tagin ≠ 0#8 → SequencerEffect i s (complete .authFailure { s with dout := 0 })

theorem absorb_effect {i : Instr} {xlen : Byte} (step : Block → Block → Block → Block) {s : State}
    (hi : i = .gfmac xlen ∨ i = .pvmac xlen) (hp : s.phase = .dispatch) :
    SequencerEffect i s (absorb step xlen s) := by
  rcases absorb_cases step xlen s with ⟨_, e⟩ | ⟨_, e⟩ | ⟨_, _, e⟩ <;> rw [e]
  · exact .bare _ hp (.inl rfl)
  · exact .bare _ hp (.inr rfl)
  · exact .accumulated xlen _ hp hi

theorem aeadDispatch_effect {i : Instr} {nlen alen dlen : Byte} {s : State}
    (hi : i = .cy2enc nlen alen dlen ∨ i = .cy2dec nlen alen dlen) (hp : s.phase = .dispatch) :
    SequencerEffect i s (aeadDispatch nlen alen dlen s) := by
  unfold aeadDispatch
  split
  · exact .bare _ hp (.inl rfl)
  · exact .requested nlen alen dlen hp hi (by simp_all)

/-- The inversion of `exec`: whatever a command answers is one of the effects. -/
theorem exec_effect {i : Instr} {s t : State} (h : exec i s = .next t) : SequencerEffect i s t := by
  cases i with
  | clear =>
    rcases onDispatch_next h with ⟨hp, rfl⟩ | ⟨hp, rfl⟩
    · exact .cleared hp rfl
    · exact .still hp
  | gfmac xlen =>
    rcases onDispatch_next h with ⟨hp, rfl⟩ | ⟨hp, rfl⟩
    · exact absorb_effect _ (.inl rfl) hp
    · exact .still hp
  | pvmac xlen =>
    rcases onDispatch_next h with ⟨hp, rfl⟩ | ⟨hp, rfl⟩
    · exact absorb_effect _ (.inr rfl) hp
    · exact .still hp
  | pvkey =>
    rcases onDispatch_next h with ⟨hp, rfl⟩ | ⟨hp, rfl⟩
    · exact .keyed _ hp rfl
    · exact .still hp
  | cy2enc nlen alen dlen =>
    simp only [exec, execCy2enc] at h
    split at h
    · rename_i hp; cases h; exact .still (by simp [hp])
    · rename_i hp; cases h; exact aeadDispatch_effect (.inl rfl) hp
    · rename_i hp
      rcases onAnswer_next h with ⟨hv, rfl⟩ | ⟨hv, rfl⟩
      · exact .answered nlen alen dlen _ hp hv (.inl ⟨rfl, rfl⟩)
      · exact .still (by simp [hp])
    · rename_i hp
      rcases onAnswer_next h with ⟨hv, rfl⟩ | ⟨hv, rfl⟩
      · exact .encrypted nlen alen dlen hp hv rfl
      · exact .still (by simp [hp])
  | cy2dec nlen alen dlen =>
    simp only [exec, execCy2dec] at h
    split at h
    · rename_i hp; cases h; exact .still (by simp [hp])
    · rename_i hp; cases h; exact aeadDispatch_effect (.inr rfl) hp
    · rename_i hp
      rcases onAnswer_next h with ⟨hv, rfl⟩ | ⟨hv, rfl⟩
      · exact .answered nlen alen dlen _ hp hv (.inr ⟨rfl, rfl⟩)
      · exact .still (by simp [hp])
    · rename_i hp
      rcases onAnswer_next h with ⟨hv, rfl⟩ | ⟨hv, rfl⟩
      · unfold decryptFinish
        split
        · exact .opened nlen alen dlen hp hv rfl ‹_›
        · exact .rejected nlen alen dlen hp hv rfl ‹_›
      · exact .still (by simp [hp])

/-- A command never stops the machine. -/
theorem exec_answers (i : Instr) (s : State) : ∃ t, exec i s = .next t := by
  cases i with
  | clear => exact ⟨_, rfl⟩
  | gfmac xlen => exact ⟨_, rfl⟩
  | pvmac xlen => exact ⟨_, rfl⟩
  | pvkey => exact ⟨_, rfl⟩
  | cy2enc nlen alen dlen => simp only [exec, execCy2enc]; split <;> exact ⟨_, rfl⟩
  | cy2dec nlen alen dlen => simp only [exec, execCy2dec]; split <;> exact ⟨_, rfl⟩

/-- The inversion of the sequencer's move. -/
theorem sequencerMove_effect {s t : State} (h : sequencerMove s = .next t) :
    (∃ i, decode s.cmd = .ok i ∧ SequencerEffect i s t) ∨
    (∃ e, decode s.cmd = .error e ∧ ((s.phase = .dispatch ∧ t = complete .illegalCommand s) ∨
      (s.phase ≠ .dispatch ∧ t = s))) := by
  unfold sequencerMove at h
  split at h
  · exact .inl ⟨_, ‹_›, exec_effect h⟩
  · exact .inr ⟨_, ‹_›, onDispatch_next h⟩

theorem sequencerMove_answers (s : State) : ∃ t, sequencerMove s = .next t := by
  unfold sequencerMove
  split
  · exact exec_answers _ _
  · exact ⟨_, rfl⟩

/-- The three cases of the collaborator's move (10_state.md R39). -/
theorem collaboratorMove_cases (E : Cipher) (s : State) :
    (s.creq.valid = false ∧ collaboratorMove E s = s) ∨
    (s.creq.valid = true ∧ s.phase = .idle ∧
      collaboratorMove E s = { s with creq := ⟨false, s.creq.ksel, s.creq.in0, s.creq.in1⟩ }) ∨
    (s.creq.valid = true ∧ s.phase ≠ .idle ∧
      collaboratorMove E s = { s with
        creq := ⟨false, s.creq.ksel, s.creq.in0, s.creq.in1⟩
        crsp := ⟨true, E s.creq.ksel s.creq.in0, E s.creq.ksel s.creq.in1⟩ }) := by
  unfold collaboratorMove
  cases hv : s.creq.valid
  · exact .inl ⟨rfl, by simp⟩
  · by_cases hp : s.phase = .idle
    · exact .inr (.inl ⟨rfl, hp, by simp [hp]⟩)
    · exact .inr (.inr ⟨rfl, hp, by simp [hp]⟩)

/-- What a register write of the host can do (20_memory.md R52, R53). -/
inductive WriteEffect (s : State) : State → Prop
  | dropped : s.status.busy = true → WriteEffect s (dropWrite s)
  | accepted (w : Word) : s.status.busy = false → WriteEffect s (accept w s)
  | statusCleared (w : Word) : s.status.busy = false → WriteEffect s { s with status := s.status.clearOnWrite w }
  | control (b : Bool) : s.status.busy = false → WriteEffect s { s with ie := b }
  | data (y h x n a din tagin : Block) : s.status.busy = false →
      WriteEffect s { s with y := y, h := h, x := x, n := n, a := a, din := din, tagin := tagin }

theorem writeControl_effect {s : State} (hb : s.status.busy = false) (i : RegNum) (w : Word) :
    WriteEffect s (writeControl s i w) := by
  unfold writeControl
  split
  · exact .accepted w hb
  · exact .statusCleared w hb
  · exact .control _ hb
  · exact .data s.y s.h s.x s.n s.a s.din s.tagin hb

theorem writeData_effect {s : State} (hb : s.status.busy = false) (i : RegNum) (b : Block) :
    WriteEffect s (writeData s i b) := by
  unfold writeData
  split
  · exact .data b s.h s.x s.n s.a s.din s.tagin hb
  · exact .data s.y b s.x s.n s.a s.din s.tagin hb
  · exact .data s.y s.h b s.n s.a s.din s.tagin hb
  · exact .data s.y s.h s.x b s.a s.din s.tagin hb
  · exact .data s.y s.h s.x s.n b s.din s.tagin hb
  · exact .data s.y s.h s.x s.n s.a b s.tagin hb
  · exact .data s.y s.h s.x s.n s.a s.din b hb
  · exact .data s.y s.h s.x s.n s.a s.din s.tagin hb

theorem regWrite_effect (s : State) (i : RegNum) (v : RegValue) : WriteEffect s (regWrite s i v) := by
  unfold regWrite
  cases hb : s.status.busy
  · cases v with
    | word w => exact writeControl_effect hb i w
    | block b => exact writeData_effect hb i b
  · exact .dropped hb

/-- What the host's move can do: nothing, a read, a write, one read of `wait`, or reset. -/
inductive HostEffect (s : State) : State → Prop
  | nothing : s.hostQueue = [] → HostEffect s s
  | hasRead (i : RegNum) (v : RegValue) (rest : List HostAction) :
      s.hostQueue = .read i :: rest → regRead s i = some v →
      HostEffect s { s with hostQueue := rest, reads := (i, v) :: s.reads }
  | wrote (i : RegNum) (v : RegValue) (rest : List HostAction) (t : State) : s.hostQueue = .write i v :: rest →
      RegNum.assigned i = true → v.fits i = true → WriteEffect { s with hostQueue := rest } t →
      t = regWrite { s with hostQueue := rest } i v → HostEffect s t
  | waited (rest : List HostAction) : s.hostQueue = .wait :: rest → HostEffect s (hostWait { s with hostQueue := rest })
  | wasReset (rest : List HostAction) : s.hostQueue = .reset :: rest →
      HostEffect s (resetBlock { s with hostQueue := rest })

theorem hostMove_effect {s t : State} (h : hostMove s = .next t) : HostEffect s t := by
  unfold hostMove at h
  split at h
  · cases h; exact .nothing ‹_›
  · rename_i act rest hq
    cases act with
    | read i =>
      simp only [hostAction, hostRead] at h
      split at h
      · cases h; exact .hasRead i _ rest hq ‹_›
      · cases h
    | write i v =>
      simp only [hostAction, hostWrite] at h
      split at h
      · split at h
        · cases h; exact .wrote i v rest _ hq ‹_› ‹_› (regWrite_effect _ i v) rfl
        · cases h
      · cases h
    | wait => cases h; exact .waited rest hq
    | reset => cases h; exact .wasReset rest hq

/-- The inversion of a step: one agent's move from the state whose schedule is used up by one entry. -/
theorem stepWith_cases {E : Cipher} {s t : State} (h : stepWith E s = .next t) :
    (nextAgent s = .host ∧ HostEffect (popSchedule s) t) ∨
    (nextAgent s = .sequencer ∧ sequencerMove (popSchedule s) = .next t) ∨
    (nextAgent s = .collaborator ∧ t = collaboratorMove E (popSchedule s)) := by
  unfold stepWith agentMove at h
  split at h
  · exact .inl ⟨‹_›, hostMove_effect h⟩
  · exact .inr (.inl ⟨‹_›, h⟩)
  · cases h; exact .inr (.inr ⟨‹_›, rfl⟩)

/-- An assigned register can be read. -/
theorem regRead_assigned (s : State) (i : RegNum) (h : RegNum.assigned i = true) : ∃ v, regRead s i = some v := by
  have hi : i.toNat < 12 := by simpa [RegNum.assigned] using h
  unfold regRead
  generalize i.toNat = k at hi
  interval_cases k <;> exact ⟨_, rfl⟩

theorem runWith_one (E : Cipher) (k : Nat) {s t : State} (h : stepWith E s = .next t) :
    runWith E (k + 1) s = runWith E k t := by
  simp [runWith, h]

end Sys2Proof.Machine
end

