-- ==== Sys2Proof/Laws/Runs.lean ====
section
/-! SUPPORT. The default order, step by step, and what the invariant looks at. -/

namespace Sys2Proof.Machine

theorem popSchedule_of_nil {s : State} (h : s.schedule = []) : popSchedule s = s := by
  unfold popSchedule
  cases s
  simp_all

/-- With no schedule imposed a host that does not wait moves. -/
theorem nextAgent_host {s : State} (h : s.schedule = []) (hw : hostWaits s = false) : nextAgent s = .host := by
  simp [nextAgent, h, defaultAgent, hw]

/-- With no schedule imposed and the host waiting, an enabled sequencer moves. -/
theorem stepWith_sequencer {E : Cipher} {s : State} (h : s.schedule = []) (hw : hostWaits s = true)
    (he : sequencerEnabled s = true) : stepWith E s = sequencerMove s := by
  unfold stepWith
  rw [popSchedule_of_nil h]
  simp [nextAgent, h, defaultAgent, hw, he, agentMove]

/-- With no schedule imposed and host and sequencer waiting, a pending request is answered. -/
theorem stepWith_collaborator {E : Cipher} {s : State} (h : s.schedule = []) (hw : hostWaits s = true)
    (he : sequencerEnabled s = false) (hc : s.creq.valid = true) : stepWith E s = .next (collaboratorMove E s) := by
  unfold stepWith
  rw [popSchedule_of_nil h]
  simp [nextAgent, h, defaultAgent, hw, he, hc, agentMove]

theorem hostWaits_cases {s : State} (h : hostWaits s = true) :
    s.hostQueue = [] ∨ ∃ rest, s.hostQueue = .wait :: rest := by
  unfold hostWaits at h
  split at h
  · exact .inl ‹_›
  · exact .inr ⟨_, ‹_›⟩
  all_goals cases h

theorem scriptEnded_iff (s : State) : scriptEnded s = true ↔ s.hostQueue = [] ∧ s.status.busy = false := by
  simp [scriptEnded]

theorem sequencerMove_of_decode {s : State} {i : Instr} (hd : decode s.cmd = .ok i) : sequencerMove s = exec i s := by
  unfold sequencerMove
  rw [hd]

theorem runWith_single (E : Cipher) (s : State) : runWith E 1 s = stepWith E s := by
  unfold runWith
  cases h : stepWith E s <;> simp [runWith]

theorem hiddenClear_complete (rc : ResultCode) (s : State) : HiddenClear (complete rc s) := ⟨rfl, rfl, rfl, rfl, rfl, rfl⟩

theorem isCymric2_unique {w : Word} {nlen alen dlen nlen' alen' dlen' : Byte} {i : Instr}
    (h : IsCymric2 w nlen alen dlen) (hd : decode w = .ok i)
    (hi : i = .cy2enc nlen' alen' dlen' ∨ i = .cy2dec nlen' alen' dlen') :
    nlen = nlen' ∧ alen = alen' ∧ dlen = dlen' := by
  rcases h with h | h <;> rw [h] at hd <;> cases hd <;> rcases hi with hi | hi <;> cases hi <;> exact ⟨rfl, rfl, rfl⟩

end Sys2Proof.Machine
end

