-- ==== Sys2Proof/Tests/Slice0.lean ====
section
/-! SUPPORT. Tests of the model against the words and values the spec writes out (95_test_vectors.md), the refused ill-formed
terms, and for every statement with hypotheses a concrete witness that meets them. -/

namespace Sys2Proof.Tests

open Sys2Proof Sys2Proof.Machine

/-! ### Helpers -/

/-- A field of the next state, or nothing where the step stops. -/
def result {α : Type} (o : Host.Outcome State Fault Refusal) (f : State → α) : Option α :=
  match o with
  | .next t => some (f t)
  | .fault _ => none
  | .refused _ => none

/-- The reset state with a command word accepted. -/
def dispatched (w : Word) : State := accept w State.reset

/-- The registers of the Field Unit in a state whose command is about to be looked at. -/
def fieldState (y h x : Block) : State := { dispatched 0 with y := y, h := h, x := x }

/-- Which of the outcomes a step has, without its state. -/
def stops (o : Host.Outcome State Fault Refusal) : Option (Fault ⊕ Refusal) :=
  match o with
  | .next _ => none
  | .fault r => some (.inl r)
  | .refused r => some (.inr r)

/-- The swap of the two halves in TOY (95_test_vectors.md section 3). -/
def rotl64 (w : Nat) : Nat := ((w <<< 64) ||| (w >>> 64)) % 2 ^ 128

/-- The constants of TOY. -/
def toyKey : KeySlot → Nat
  | .slot0 => 0x0123456789ABCDEF0123456789ABCDEF
  | .slot1 => 0xFEDCBA9876543210FEDCBA9876543210

/-- One round of TOY. -/
def toyRound (k : KeySlot) (v : Nat) : Nat :=
  rotl64 ((((v + toyKey k) % 2 ^ 128) * 0x9E3779B97F4A7C15F39CC0605CEDC835) % 2 ^ 128)

/-- TOY, the spec's cipher for tests only. -/
def toy : Cipher := fun k B => blk (toyRound k (toyRound k (be128 B)))

/-- A cipher that is injective in each slot, for witnesses. -/
def plain : Cipher := fun _ B => B

/-- The state of V-E1 and V-E2 in AE_WAIT2 (95_test_vectors.md section 3), with its answer standing. -/
def waitingForTag (w : Word) (din tagin answer : Block) : State :=
  { dispatched w with
    n := 0x000102030405060708090a0b00000000#128
    a := 0x00010200000000000000000000000000#128
    din := din
    tagin := tagin
    phase := .aeWait2
    tY0 := 0xc841521e66bc67ed723db63f2e199cc1#128
    tY1 := 0xcadbfa923eab32ce4840614bd63ad49a#128
    tM := 0x7f43f6af885a308d0000000000000000#128
    tT := 0xb702a4b1eee65760f23db63f2e199cc1#128
    crsp := ⟨true, answer, answer⟩ }

/-- The empty command `cy2enc 0, 0, 0` or `cy2dec 0, 0, 0` waiting for its tag under `plain`, the answer standing. -/
def emptyWaiting (w : Word) : State :=
  { dispatched w with
    phase := .aeWait2
    tY0 := 0x20#128
    tY1 := 0x60#128
    tT := 0x80000000000000000000000000000020#128
    creq := ⟨false, .slot1, 0x80000000000000000000000000000020#128, 0x80000000000000000000000000000020#128⟩
    crsp := ⟨true, 0x80000000000000000000000000000020#128, 0x80000000000000000000000000000020#128⟩ }

/-! ### Well-formedness: what the check refuses -/

theorem test_wellFormed_refuses_read_of_12 : (HostAction.read 12).wellFormed = false := by decide
theorem test_wellFormed_refuses_write_of_15 : (HostAction.write 15 (.word 0)).wellFormed = false := by decide
theorem test_wellFormed_refuses_word_to_data : (HostAction.write 3 (.word 0)).wellFormed = false := by decide
theorem test_wellFormed_refuses_block_to_control : (HostAction.write 2 (.block 0)).wellFormed = false := by decide
theorem test_wellFormed_admits_edges : (HostAction.read 11).wellFormed = true ∧
    (HostAction.write 2 (.word 0)).wellFormed = true ∧ (HostAction.write 3 (.block 0)).wellFormed = true := by decide

/-! ### Decoding: the table of 95_test_vectors.md section 5 -/

theorem test_decode_clear : decode 0x00000001#32 = .ok .clear := by decide
theorem test_decode_gfmac : decode 0x00000010#32 = .ok (.gfmac 0) ∧ decode 0x00001010#32 = .ok (.gfmac 16) ∧
    decode 0x0000FF10#32 = .ok (.gfmac 255) := by decide
theorem test_decode_pvmac : decode 0x00000311#32 = .ok (.pvmac 3) := by decide
theorem test_decode_pvkey : decode 0x00000012#32 = .ok .pvkey := by decide
theorem test_decode_cy2enc : decode 0x08030C20#32 = .ok (.cy2enc 12 3 8) ∧
    decode 0xFFFFFF20#32 = .ok (.cy2enc 255 255 255) := by decide
theorem test_decode_cy2dec : decode 0x08030C21#32 = .ok (.cy2dec 12 3 8) := by decide
theorem test_decode_must_be_zero : decode 0x00000101#32 = .error (.mustBeZero 0x01#8) ∧
    decode 0x00010010#32 = .error (.mustBeZero 0x10#8) ∧ decode 0x00000112#32 = .error (.mustBeZero 0x12#8) ∧
    decode 0x80000001#32 = .error (.mustBeZero 0x01#8) := by decide
theorem test_decode_unassigned : decode 0x00000000#32 = .error (.unassignedOpcode 0x00#8) ∧
    decode 0x00000002#32 = .error (.unassignedOpcode 0x02#8) ∧ decode 0x00000013#32 = .error (.unassignedOpcode 0x13#8) ∧
    decode 0x000000FF#32 = .error (.unassignedOpcode 0xFF#8) := by decide
theorem test_decode_cymric1 : decode 0x08030C22#32 = .error (.reservedForCymric1 0x22#8) ∧
    decode 0x08030C23#32 = .error (.reservedForCymric1 0x23#8) := by decide
theorem test_table_word : decodeTableWord 32 0x08030C20 = some (.cy2enc 12 3 8) ∧ decodeTableWord 8 0x01 = some .clear ∧
    decodeTableWord 32 0x08030C22 = none := by decide

/-! ### Bytes, words and arithmetic: values of the spec -/

/-- 40_field_unit.md R95 and V-F27. -/
theorem test_clmul : clmul 0xdeadbeef 0x12345678 = 0x0c42fde8de112da8 ∧ clmul 0x80000000 0x80000000 = 0x4000000000000000 := by
  decide +kernel

/-- The product of the datapath before reduction, worked example of 40_field_unit.md R95. -/
theorem test_kmul128 : kmul128 (poly 0x00112233445566778899aabbccddeeff#128) (poly 0x0f1e2d3c4b5a69788796a5b4c3d2e1f0#128) =
    0x057a85050a8a8af50e8e8ef1017e8101047b84040b8b8bf40f8f8ff0007f8000 := by decide +kernel

/-- V-F1 by the datapath. -/
theorem test_datapath : gfMulDatapath 0x00112233445566778899aabbccddeeff#128 0x0f1e2d3c4b5a69788796a5b4c3d2e1f0#128 =
    0x9161629de5fa86861da2dede59b93ac5#128 := by decide +kernel

/-- V-E6, with nine zero bytes before the nonce. -/
theorem test_domain_block_left : p0 0xa0a1a2a3000000000000000000000000#128 0xb0b10000000000000000000000000000#128 4 2 5 =
    0x000000000000000000a0a1a2a3b0b120#128 := by decide +kernel

/-- V-E6, the block the spec prints for the other pad side. -/
theorem test_domain_block_right : domainBlock .right (bytes 0xa0a1a2a3000000000000000000000000#128 0 4)
    (bytes 0xb0b10000000000000000000000000000#128 0 2) 0x20#8 = 0xa0a1a2a3b0b120000000000000000000#128 := by decide +kernel

/-- V-E3, the full-block domain byte of the second block. -/
theorem test_domain_block_full : p1 0x000102030405060708090a0b00000000#128 0x00010200000000000000000000000000#128 12 3 16 =
    0x000102030405060708090a0b000102e0#128 := by decide +kernel

/-- The examples of 41_cymric_engine.md R126. -/
theorem test_pad10 : pad10 0x7f43f6af885a308d0000000000000000#128 8 = 0x7f43f6af885a308d8000000000000000#128 ∧
    pad10 0 0 = 0x80000000000000000000000000000000#128 := by decide +kernel

/-- V-E10: only the last byte differs. -/
theorem test_comparator_last_byte :
    ctDiff 0x642cad8cba4055e233ec2914ebca99b6#128 0x642cad8cba4055e233ec2914ebca9936#128 = 0x80#8 := by decide +kernel

/-- The check values of TOY. -/
theorem test_toy : toy .slot0 0 = 0xe4608639638e7ef526ec9c21f4eaa0d9#128 ∧
    toy .slot1 0x000102030405060708090a0b0c0d0e0f#128 = 0xa242fe4e74ced8a40489e110814c0c7a#128 := by decide +kernel

/-- STATUS words of the trace V-T1 and of V-T2. -/
theorem test_status_words : Status.word ⟨true, false, true, 0x00#8⟩ = 0x00000005#32 ∧
    Status.word ⟨false, true, true, 0x00#8⟩ = 0x00000006#32 ∧ Status.word ⟨false, true, false, 0xFE#8⟩ = 0x0000FE02#32 := by
  decide

/-! ### One step of each command -/

/-- 42_housekeeping.md R150. -/
theorem test_clear : result (exec .clear { fieldState 1 2 3 with dout := 8, tagout := 9 })
    (fun t => (t.y, t.h, t.x, t.dout, t.tagout, t.status.word)) = some (0, 0, 0, 0, 0, 0x00000002#32) := by decide

/-- V-F9, a partial block. -/
theorem test_gfmac_partial : result (exec (.gfmac 5) (fieldState 0x5e2ec746917062882c85b0685353deb7#128
      0x66e94bd4ef8a2c3b884cfa59ca342b2e#128 0x0102030405ffffffffffffffffffffff#128))
    (fun t => (t.y, t.status.word)) = some (0x1ada30c0eeebc57a23816818983764ed#128, 0x00000002#32) := by decide +kernel

/-- V-F13, one byte too many. -/
theorem test_gfmac_too_long : result (exec (.gfmac 17) (fieldState 0x00112233445566778899aabbccddeeff#128
      0x0f1e2d3c4b5a69788796a5b4c3d2e1f0#128 0x0f1e2d3c4b5a69788796a5b4c3d2e1f0#128))
    (fun t => (t.y, t.status.word)) = some (0x00112233445566778899aabbccddeeff#128, 0x0000FF02#32) := by decide

/-- V-F21, the second block of the RFC 8452 example. -/
theorem test_pvmac_full : result (exec (.pvmac 16) (fieldState 0xcedac64537ff50989c16011551086d77#128
      0xdcbaa5dd137c188ebb21492c23c9b112#128 0xd1a24ddd2721d006bbe45f20d3c9f362#128))
    (fun t => t.y) = some 0xf7a3b47b846119fae5b7866cf5e5b77e#128 := by decide +kernel

/-- V-F22, padded at the end before reversal. -/
theorem test_pvmac_partial : result (exec (.pvmac 3) (fieldState 0xcedac64537ff50989c16011551086d77#128
      0xdcbaa5dd137c188ebb21492c23c9b112#128 0xaabbccddeeff00112233445566778899#128))
    (fun t => t.y) = some 0x73cf0839fed0f884a398c110ed7db2e6#128 := by decide +kernel

/-- V-F16, the reduction taken. -/
theorem test_pvkey_reduces : result (exec .pvkey (fieldState 0 0x01000000000000000000000000000000#128 0))
    (fun t => (t.h, t.status.word)) = some (0xe1000000000000000000000000000000#128, 0x00000002#32) := by decide +kernel

/-- V-F19, a general value. -/
theorem test_pvkey_general : result (exec .pvkey (fieldState 0 0x00112233445566778899aabbccddeeff#128 0))
    (fun t => t.h) = some 0x7ff76ee65dd54cc43bb32aa219910880#128 := by decide +kernel

/-- V-E1, the DISPATCH step: the request it makes. -/
theorem test_cy2enc_request : result (exec (.cy2enc 12 3 8) { dispatched 0x08030C20#32 with
      n := 0x000102030405060708090a0b00000000#128, a := 0x00010200000000000000000000000000#128 })
    (fun t => (t.phase, t.creq)) = some (.aeWait1, ⟨true, .slot0, 0x000102030405060708090a0b00010220#128,
      0x000102030405060708090a0b00010260#128⟩) := by decide +kernel

/-- V-E1, the AE_WAIT2 step: the results. -/
theorem test_cy2enc_results : result (exec (.cy2enc 12 3 8) (waitingForTag 0x08030C20#32
      0x7f43f6af885a308d0000000000000000#128 0 0x642cad8cba4055e233ec2914ebca99b6#128))
    (fun t => (t.dout, t.tagout, t.status.word)) = some (0x7dd95e23d04d65ae0000000000000000#128,
      0x642cad8cba4055e233ec2914ebca99b6#128, 0x00000002#32) := by decide +kernel

/-- V-E11, the AE_WAIT1 step on a flipped ciphertext bit: the recovered plaintext and the tag pre-image. -/
theorem test_cy2dec_recovers : result (exec (.cy2dec 12 3 8) { dispatched 0x08030C21#32 with
      din := 0x6dd95e23d04d65ae0000000000000000#128, phase := .aeWait1,
      crsp := ⟨true, 0xc841521e66bc67ed723db63f2e199cc1#128, 0xcadbfa923eab32ce4840614bd63ad49a#128⟩ })
    (fun t => (t.tM, t.tT, t.phase)) = some (0x6f43f6af885a308d0000000000000000#128,
      0xa702a4b1eee65760f23db63f2e199cc1#128, .aeWait2) := by decide +kernel

/-- V-E9, a flipped tag bit, with stale output destroyed as in V-E11. -/
theorem test_cy2dec_rejects : result (exec (.cy2dec 12 3 8) { waitingForTag 0x08030C21#32
      0x7dd95e23d04d65ae0000000000000000#128 0x652cad8cba4055e233ec2914ebca99b6#128
      0x642cad8cba4055e233ec2914ebca99b6#128 with dout := BitVec.allOnes 128 })
    (fun t => (t.dout, t.tagout, t.status.word)) = some (0, 0, 0x00000102#32) := by decide +kernel

/-! ### One step of the machine -/

/-- V-T2: an illegal word. -/
theorem test_step_illegal : result (step (State.reset.withFetchWord 32 0x08030C22)) (fun t => (t.status.word, t.cmd)) =
    some (0x0000FE02#32, 0x08030C22#32) := by rfl

/-- V-E1: the collaborator's first answer under TOY. -/
theorem test_step_collaborator : result (stepWith toy { dispatched 0x08030C20#32 with
      phase := .aeWait1,
      creq := ⟨true, .slot0, 0x000102030405060708090a0b00010220#128, 0x000102030405060708090a0b00010260#128⟩ })
    (fun t => (t.crsp, t.creq.valid)) = some (⟨true, 0xc841521e66bc67ed723db63f2e199cc1#128,
      0xcadbfa923eab32ce4840614bd63ad49a#128⟩, false) := by decide +kernel

/-- Program P5: the write between a command line and its `wait` is dropped and sets OVR. -/
theorem test_step_write_before_wait : result (stepWith plain { dispatched 0x05020420#32 with
      x := 0x202122232425262728292a2b2c2d2e2f#128,
      hostQueue := [.write 5 (.block 0x303132333435363738393a3b3c3d3e3f#128), .wait] })
    (fun t => (t.x, t.status.ovr, t.phase, t.hostQueue)) =
    some (0x202122232425262728292a2b2c2d2e2f#128, true, .dispatch, [.wait]) := by decide

/-- The stops of the port: a reserved number and a value of the other width (20_memory.md R54, 93 U6). -/
theorem test_step_stops : stops (hostRead 12 State.reset) = some (.inr (.reservedRegister 12)) ∧
    stops (hostWrite 3 (.word 0) State.reset) = some (.inl (.widthMismatch 3)) := by decide

/-! ### Witnesses: for every statement with hypotheses, what meets them -/

theorem witness_DecodeEncodeRoundTrip : (Instr.cy2enc 255 0 16).wellFormed = true := by decide

theorem witness_EncodeDecodeSameWord : decode 0xFF00FF21#32 = .ok (.cy2dec 255 0 255) := by decide

theorem witness_CommandTableDecides :
    0x0000FF10#32 &&& (Instr.gfmac 0).mask = (Instr.gfmac 0).matchWord ∧
    decode 0x0000FF10#32 = .ok (.gfmac 255) ∧ decode 0x00000011#32 = .ok (.pvmac 0) ∧
    decode 0xFF00FF20#32 = .ok (.cy2enc 255 0 255) ∧ decode 0x00FF0021#32 = .ok (.cy2dec 0 255 0) := by decide

theorem witness_IllegalWordOutcome :
    decode (dispatched 0x00010011#32).cmd = .error (.mustBeZero 0x11#8) ∧ (dispatched 0x00010011#32).phase = .dispatch :=
  by decide

theorem witness_StepRunsDecodedCommand :
    decode (dispatched 0x00000012#32).cmd = .ok .pvkey ∧ nextAgent (dispatched 0x00000012#32) = .sequencer ∧
    decodeTableWord 32 0x00000012 = some .pvkey := by decide

/-- The host is next, with `act` first in its queue, in a state that is or is not busy. -/
def hostNext (busy : Bool) (act : HostAction) : State :=
  { State.reset with
    status := ⟨busy, false, false, 0⟩, phase := if busy then .aeWait1 else .idle, hostQueue := [act], schedule := [.host] }

theorem witness_EachAgentsStep : nextAgent (dispatched 0x00000000#32) = .sequencer ∧
    nextAgent (hostNext false (.write 0 (.word 0xFFFFFFFF#32))) = .host ∧
    (hostNext false (.write 0 (.word 0xFFFFFFFF#32))).hostQueue = [.write 0 (.word 0xFFFFFFFF#32)] ∧
    nextAgent State.reset = .host ∧ State.reset.hostQueue = [] ∧
    nextAgent { State.reset with creq := ⟨true, .slot0, 0, 0⟩ } = .collaborator := by decide

theorem witness_BusyWriteDropped : (11 : RegNum).toNat < 12 ∧ (HostAction.write 11 (.block 1)).wellFormed = true ∧
    (0 : RegNum).toNat < 12 ∧ (HostAction.write 0 (.word 1)).wellFormed = true ∧
    (dispatched 0x00000001#32).status.busy = true := by decide

theorem witness_IdleWriteEffects : State.reset.status.busy = false ∧ 12 ≤ (12 : RegNum).toNat ∧ 12 ≤ (15 : RegNum).toNat := by
  decide

theorem witness_ReadsReturnRegisters : (State.reset.cmd = 0 ∧ (0 : RegNum).toNat = 0) ∧
    result (hostRead 11 { State.reset with tagout := 7 }) (fun t => t.reads) = some [(11, .block 7)] ∧
    result (hostRead 2 { State.reset with ie := true }) (fun t => t.reads) = some [(2, .word 1)] := by decide

theorem witness_InterruptFollowsDone : State.reset.status.busy = false ∧ (0x00000002#32).getLsbD 1 = true ∧
    (0x00000002#32).getLsbD 0 = false := by decide

theorem witness_UnknownAccessStops : 12 ≤ (12 : RegNum).toNat ∧ 12 ≤ (15 : RegNum).toNat ∧ (2 : RegNum).toNat < 3 ∧
    (3 ≤ (3 : RegNum).toNat ∧ (3 : RegNum).toNat < 12) ∧ (3 ≤ (11 : RegNum).toNat ∧ (11 : RegNum).toNat < 12) := by decide

theorem witness_ResetFromAnyState : nextAgent (hostNext true .reset) = .host ∧ (hostNext true .reset).hostQueue = [.reset] := by
  decide

theorem witness_WaitReadsStatus : nextAgent (hostNext true .wait) = .host ∧ (hostNext true .wait).hostQueue = [.wait] ∧
    (hostNext true .wait).status.busy = true ∧ nextAgent (hostNext false .wait) = .host ∧
    (hostNext false .wait).hostQueue = [.wait] ∧ (hostNext false .wait).status.busy = false := by decide

/-- `gfmac 16`, a write to `X`, `wait`, from reset. -/
theorem witness_WaitReadsStatus_dropped_write :
    { State.reset with hostQueue := [.write 0 (.word 0x00001010#32), .write 5 (.block 1), .wait] }.schedule = [] ∧
    State.reset.status.busy = false ∧ (∀ p ∈ [((5 : RegNum), RegValue.block 1)], (HostAction.write p.1 p.2).wellFormed = true) ∧
    [HostAction.write 0 (.word 0x00001010#32), .write 5 (.block 1), .wait] =
      .write 0 (.word 0x00001010#32) :: ([((5 : RegNum), RegValue.block 1)].map fun p => .write p.1 p.2) ++ .wait :: [] := by
  decide

/-- A pending request under slot 1 in phase `p`. -/
def requested (p : Phase) : State := { State.reset with creq := ⟨true, .slot1, 1, 2⟩, phase := p }

theorem witness_CollaboratorAnswers : (requested .aeWait2).creq.valid = true ∧ (requested .aeWait2).phase ≠ .idle ∧
    (requested .idle).creq.valid = true ∧ (requested .idle).phase = .idle := by decide

theorem witness_ClearCompletes : (dispatched 0x00000001#32).phase = .dispatch := by decide

theorem witness_GfmacCompletes : (dispatched 0x00001110#32).phase = .dispatch ∧ 16 < (17 : Byte).toNat ∧
    (0 : Byte).toNat = 0 ∧ ¬ 16 < (16 : Byte).toNat := by decide

theorem witness_PvmacCompletes : (dispatched 0x00001011#32).phase = .dispatch ∧ 16 < (17 : Byte).toNat ∧ (0 : Byte).toNat = 0 ∧
    (0 < (1 : Byte).toNat ∧ (1 : Byte).toNat ≤ 16) ∧ (0 < (16 : Byte).toNat ∧ (16 : Byte).toNat ≤ 16) := by decide

theorem witness_PvkeyCompletes : (dispatched 0x00000012#32).phase = .dispatch := by decide

theorem witness_Cymric2DispatchStep : (dispatched 0x08030C20#32).phase = .dispatch ∧
    16 < (17 : Byte).toNat ∧ 15 < (12 : Byte).toNat + (4 : Byte).toNat ∧ 15 < (255 : Byte).toNat + (1 : Byte).toNat ∧
    (16 : Byte).toNat ≤ 16 ∧ (15 : Byte).toNat + (0 : Byte).toNat ≤ 15 := by decide

/-- A Cymric2 command in AE_WAIT1 with its answer standing. -/
def answered (w : Word) : State := { dispatched w with phase := .aeWait1, crsp := ⟨true, 1, 2⟩ }

theorem witness_Cymric2FirstAnswerStep : (answered 0x08030C20#32).phase = .aeWait1 ∧
    (answered 0x08030C20#32).crsp.valid = true := by decide

theorem witness_Cymric2FinishStep : (emptyWaiting 0x00000021#32).phase = .aeWait2 ∧
    (emptyWaiting 0x00000021#32).crsp.valid = true ∧
    ctDiff (emptyWaiting 0x00000021#32).crsp.out0 0x80000000000000000000000000000020#128 = 0#8 ∧
    ctDiff (emptyWaiting 0x00000021#32).crsp.out0 (emptyWaiting 0x00000021#32).tagin ≠ 0#8 := by decide +kernel

theorem witness_NothingMovesUnlessEnabled : State.reset.phase = .idle ∧
    { State.reset with phase := .aeWait1 }.crsp.valid = false ∧ { State.reset with phase := .aeWait2 }.crsp.valid = false ∧
    State.reset.creq.valid = false ∧ decode State.reset.cmd = .error (.unassignedOpcode 0x00#8) ∧
    State.reset.phase ≠ .dispatch := by decide

theorem witness_FieldUnitFrame : ∃ t, exec (.gfmac 16) (dispatched 0x00001010#32) = .next t ∧ t.phase = .idle :=
  ⟨_, rfl, rfl⟩

theorem witness_AeadEngineFrame : ∃ t, exec (.cy2enc 0 0 0) (emptyWaiting 0x00000020#32) = .next t ∧ t.phase = .idle :=
  ⟨_, rfl, rfl⟩

theorem witness_PreciseCompletions :
    (∃ t, (dispatched 0x00001110#32).status.busy = true ∧ sequencerMove (dispatched 0x00001110#32) = .next t ∧
      t.status.busy = false ∧ t.status.rc = 0xFF#8) ∧
    (∃ t, (dispatched 0x00000000#32).status.busy = true ∧ sequencerMove (dispatched 0x00000000#32) = .next t ∧
      t.status.busy = false ∧ t.status.rc = 0xFE#8) := ⟨⟨_, rfl, rfl, rfl, rfl⟩, _, rfl, rfl, rfl, rfl⟩

theorem witness_PreciseCompletions_failed_tag : (emptyWaiting 0x00000021#32).status.busy = true ∧
    result (sequencerMove (emptyWaiting 0x00000021#32)) (fun t => (t.status.busy, t.status.rc)) = some (false, 0x01#8) := by
  decide +kernel

theorem witness_BusyKeepsRegisters : ∃ t, (answered 0x00000020#32).status.busy = true ∧
    stepWith plain (answered 0x00000020#32) = .next t ∧ t.status.busy = true := ⟨_, rfl, rfl, rfl⟩

theorem witness_CipherRequestsMade :
    (∃ t, exec (.cy2enc 15 0 16) (dispatched 0x10000F20#32) = .next t ∧
      (dispatched 0x10000F20#32).creq.valid = false ∧ t.creq.valid = true) ∧
    (∃ t, exec (.cy2dec 0 0 0) (answered 0x00000021#32) = .next t ∧
      (answered 0x00000021#32).creq.valid = false ∧ t.creq.valid = true) := ⟨⟨_, rfl, rfl, rfl⟩, _, rfl, rfl, rfl⟩

theorem witness_BlocksAreBigEndian : 2 ^ 128 - 1 < 2 ^ 128 := by decide

theorem witness_ReversalAndPaddingBytes : (15 < 16 ∧ 0 ≤ 16 ∧ 16 ≤ 16) ∧ ∀ i < 16, byteAt 0#128 i = byteAt 0#128 i := by
  decide

theorem witness_CoefficientBits : (127 < 128 ∧ 0 < 128) ∧ 2 ^ 128 - 1 < 2 ^ 128 := by decide

theorem witness_CarryLessProductLaws : 3 ≠ 0 ∧ 1 ≠ 0 ∧ 3 < 2 ^ 2 ∧ 1 < 2 ^ 1 ∧ clmul 3 1 < 2 ^ (2 + 1 - 1) := by decide

/-- The highest product degree, V-F8, and its remainder. -/
theorem witness_PolymodIsRemainder : 2 ^ 254 < 2 ^ 255 ∧ (0 < 2 ^ 128 ∧ 1 < 2 ^ 127 ∧
    Config.reductionPoly = 0 ^^^ clmul (2 ^ 128 + 0x87) 1) := by decide +kernel

theorem witness_FoldComputesRemainder : 2 ^ 254 < 2 ^ 255 := by decide

theorem witness_KaratsubaComputesProduct : 2 ^ 64 - 1 < 2 ^ 64 ∧ 2 ^ 128 - 1 < 2 ^ 128 := by decide

theorem witness_DomainBlockBytes : (15 + 0 ≤ 15 ∧ 16 ≤ 16) ∧ (0 + 0 ≤ 15 ∧ 0 ≤ 16) := by decide

theorem witness_DomainSeparation : 12 + 3 ≤ 15 ∧ 15 < 16 := by decide

/-- The examples of 41_cymric_engine.md R123. -/
theorem witness_DomainBlocksForgetTheSplit :
    ([0x00#8, 0x01#8] : List Byte) ++ [0x02#8] = List.replicate 0 0 ++ ([0x00#8] ++ [0x01#8, 0x02#8]) ∧
    ([0x00#8, 0xa0#8] : List Byte) ++ [0xb0#8] = List.replicate 1 0 ++ ([0xa0#8] ++ [0xb0#8]) ∧ 2 + 1 ≤ 15 ∧
    ((8 = 16) ↔ (3 = 16)) := by decide

theorem witness_PadTenBytes : (0 < 16 ∧ 15 < 16) ∧ (0 < 15 ∧ 15 < 16) ∧ pad10 0 0 = pad10 1 0 := by decide +kernel

/-- `cy2enc 0, 0, 0` under `plain`. -/
theorem witness_DecryptAfterEncrypt :
    cy2Encrypt plain [] [] [] = .ok ([], 0x80000000000000000000000000000020#128) := by decide +kernel

theorem witness_TamperingIsDetected :
    (cy2Encrypt plain [] [] [0x01#8] = .ok ([0x01#8], 0x01800000000000000000000000000020#128) ∧
      (0 : Block) ≠ 0x01800000000000000000000000000020#128 ∧ ([0x02#8] : List Byte).length = [0x01#8].length ∧
      ([0x02#8] : List Byte) ≠ [0x01#8]) ∧ Function.Injective (plain .slot1) :=
  ⟨by decide +kernel, fun _ _ h => h⟩

theorem witness_EncryptionRunComputesConstruction : (dispatched 0x10000F20#32).phase = .dispatch ∧
    HiddenClear (dispatched 0x10000F20#32) ∧ CommandMovesNext (dispatched 0x10000F20#32) ∧
    decode (dispatched 0x10000F20#32).cmd = .ok (.cy2enc 15 0 16) ∧ (16 : Byte).toNat ≤ 16 ∧
    (15 : Byte).toNat + (0 : Byte).toNat ≤ 15 :=
  ⟨rfl, ⟨rfl, rfl, rfl, rfl, rfl, rfl⟩, .inl ⟨rfl, rfl⟩, by decide, by decide, by decide⟩

theorem witness_DecryptionRunComputesConstruction : (dispatched 0x10000F21#32).phase = .dispatch ∧
    HiddenClear (dispatched 0x10000F21#32) ∧ CommandMovesNext (dispatched 0x10000F21#32) ∧
    decode (dispatched 0x10000F21#32).cmd = .ok (.cy2dec 15 0 16) ∧ (16 : Byte).toNat ≤ 16 ∧
    (15 : Byte).toNat + (0 : Byte).toNat ≤ 15 :=
  ⟨rfl, ⟨rfl, rfl, rfl, rfl, rfl, rfl⟩, .inl ⟨rfl, rfl⟩, by decide, by decide, by decide⟩

/-- A command just accepted from reset meets the invariant, whatever the host is about to do. -/
theorem inv_dispatched (E : Cipher) (w : Word) (q : List HostAction) : Inv E { dispatched w with hostQueue := q } where
  idle_iff := by simp [dispatched, Status.accepted]
  busy_flags _ := ⟨rfl, rfl⟩
  rc_legal := ⟨.ok, rfl⟩
  idle_clear h := by cases h
  dispatch_clear _ := ⟨rfl, rfl, rfl, rfl, rfl, rfl⟩
  first_call h := by cases h
  tag_call h := by cases h

/-- A Cymric2 command waiting for its tag meets the invariant. -/
theorem inv_emptyWaiting (w : Word) (hw : IsCymric2 w 0 0 0) : Inv plain (emptyWaiting w) where
  idle_iff := by simp [emptyWaiting, dispatched, Status.accepted]
  busy_flags _ := ⟨rfl, rfl⟩
  rc_legal := ⟨.ok, rfl⟩
  idle_clear h := by cases h
  dispatch_clear h := by cases h
  first_call h := by cases h
  tag_call _ := ⟨0, 0, 0, hw, by decide, (by decide +kernel : 0x20#128 = p0 0 0 0 0 0),
    (by decide +kernel : 0x60#128 = p1 0 0 0 0 0), fun _ => (by decide +kernel : 0#128 = pad0 0 0),
    fun _ => (by decide +kernel : 0#128 = cipherBody (pad0 0 0) 0x20#128 0x60#128 0),
    (by decide +kernel : 0x80000000000000000000000000000020#128 = tagPreimage 0x20#128 0 0), .inr ⟨rfl, rfl⟩⟩

/-- The moves may also come from the schedule, whatever the host is about to do. -/
theorem witness_CommandMovesNext_by_schedule : CommandMovesNext { dispatched 0x10000F20#32 with
    schedule := [.sequencer, .collaborator, .sequencer, .collaborator, .sequencer, .host], hostQueue := [.read 1] } :=
  .inr ⟨[.host], rfl⟩

theorem witness_EveryStepKeepsInvariant : Inv plain (dispatched 0x00000012#32) ∧
    ∃ t, stepWith plain (dispatched 0x00000012#32) = .next t := ⟨inv_dispatched _ _ [], _, rfl⟩

theorem witness_ResultsUnderEveryInterleaving :
    (Inv plain (emptyWaiting 0x00000020#32) ∧ Inv plain (emptyWaiting 0x00000021#32)) ∧
    (emptyWaiting 0x00000020#32).phase = .aeWait2 ∧ (emptyWaiting 0x00000020#32).crsp.valid = true ∧
    nextAgent (emptyWaiting 0x00000020#32) = .sequencer ∧ nextAgent (emptyWaiting 0x00000021#32) = .sequencer ∧
    decode (emptyWaiting 0x00000020#32).cmd = .ok (.cy2enc 0 0 0) ∧
    decode (emptyWaiting 0x00000021#32).cmd = .ok (.cy2dec 0 0 0) :=
  ⟨⟨inv_emptyWaiting _ (.inl (by decide)), inv_emptyWaiting _ (.inr (by decide))⟩, by decide⟩

theorem witness_CompletionWithinFiveSteps : Inv plain (dispatched 0x00000020#32) ∧
    (dispatched 0x00000020#32).status.busy = true ∧ (dispatched 0x00000020#32).schedule = [] ∧
    hostWaits (dispatched 0x00000020#32) = true := ⟨inv_dispatched _ _ [], rfl, rfl, rfl⟩

/-- A script of three actions on the busy state. -/
theorem witness_CompletionWithinFiveSteps_script :
    Inv plain { dispatched 0x00000020#32 with hostQueue := [.write 5 (.block 1), .wait, .read 11] } ∧
    { dispatched 0x00000020#32 with hostQueue := [.write 5 (.block 1), .wait, .read 11] }.schedule = [] ∧
    ∀ act ∈ [HostAction.write 5 (.block 1), .wait, .read 11], act.wellFormed = true :=
  ⟨inv_dispatched _ _ _, rfl, by decide⟩

/-- The state a CLEAR from reset leaves, its script at its end. -/
def afterClear : State := { State.reset with cmd := 0x00000001#32, status := ⟨false, true, false, 0x00#8⟩ }

theorem witness_CompletionWithinFiveSteps_end : Inv plain afterClear ∧ afterClear.schedule = [] ∧
    afterClear.hostQueue = [] ∧ afterClear.status.busy = false ∧ scriptEnded afterClear = true where
  left :=
    { idle_iff := by simp [afterClear, State.reset]
      busy_flags := fun h => by cases h
      rc_legal := ⟨.ok, rfl⟩
      idle_clear := fun _ => ⟨rfl, rfl, rfl, rfl, rfl, rfl⟩
      dispatch_clear := fun h => by cases h
      first_call := fun h => by cases h
      tag_call := fun h => by cases h }
  right := by decide

theorem witness_StepOrderIsSecretIndependent :
    stepView (dispatched 0x00000020#32) = stepView { dispatched 0x00000020#32 with n := 1, din := 2, h := 3 } := by decide

theorem witness_FailedDecryptionRevealsNothing :
    hostView (emptyWaiting 0x00000021#32) = hostView { emptyWaiting 0x00000021#32 with tM := 5, crsp := ⟨true, 1, 1⟩ } ∧
    (emptyWaiting 0x00000021#32).phase = .aeWait2 ∧ (emptyWaiting 0x00000021#32).crsp.valid = true ∧
    (emptyWaiting 0x00000021#32).crsp.out0 ≠ (emptyWaiting 0x00000021#32).tagin ∧
    { emptyWaiting 0x00000021#32 with tM := 5, crsp := ⟨true, 1, 1⟩ }.crsp.out0 ≠
      { emptyWaiting 0x00000021#32 with tM := 5, crsp := ⟨true, 1, 1⟩ }.tagin := by decide

theorem witness_WellFormedHostNeverStops : (∀ act rest, (hostNext true (.read 11)).hostQueue = act :: rest →
    act.wellFormed = true) := by
  intro act rest h
  cases h
  decide

end Sys2Proof.Tests
end

/-! PROOFS. The scope family (00_scope.md): the agents' steps, blocks as big-endian numbers, and the results of a Cymric2
command. -/

namespace Sys2Proof.Machine

/-! ### The agents' steps -/

theorem stepWith_of_nextAgent {E : Cipher} {s : State} {g : Agent} (hg : nextAgent s = g) :
    stepWith E s = agentMove E g (popSchedule s) := by rw [stepWith, hg]

theorem hostMove_of_nil {s : State} (hq : s.hostQueue = []) : hostMove s = .next s := by rw [hostMove, hq]

theorem hostMove_of_cons {s : State} {act : HostAction} {rest : List HostAction} (hq : s.hostQueue = act :: rest) :
    hostMove s = hostAction act { s with hostQueue := rest } := by rw [hostMove, hq]

/-- Settles O8: `nextAgent` picks the agent, and the host's move is a case split over its queue. -/
theorem eachAgentsStep : Obligations.EachAgentsStep := by
  intro E s
  refine ⟨stepWith_of_nextAgent, stepWith_of_nextAgent, fun act rest hg hq => ?_, fun hg hq => ?_⟩
  · exact (stepWith_of_nextAgent hg).trans (hostMove_of_cons hq)
  · exact (stepWith_of_nextAgent hg).trans (hostMove_of_nil hq)

/-! ### Blocks as big-endian numbers -/

/-- The base-256 digits of `v`, the most significant first, add up to `v` below the `n`-th place. -/
theorem sum_base256_digits (v n : Nat) :
    ((List.range n).map fun i => v / 2 ^ (8 * (n - 1 - i)) % 256 * 2 ^ (8 * (n - 1 - i))).sum = v % 2 ^ (8 * n) := by
  induction n with
  | zero => simp [Nat.mod_one]
  | succ n ih =>
    have hpow : 2 ^ (8 * (n + 1)) = 2 ^ (8 * n) * 256 := by rw [Nat.mul_add, Nat.pow_add]
    rw [List.range_succ_eq_map, List.map_cons, List.sum_cons, List.map_map, hpow, Nat.mod_mul, ← ih]
    simp only [Function.comp_def, Nat.succ_eq_add_one, Nat.add_sub_cancel, Nat.sub_zero, Nat.sub_sub,
      Nat.add_comm 1]
    ring

theorem be128_eq_sum_bytes (B : Block) :
    be128 B = ((List.range 16).map fun i => (byteAt B i).toNat * 2 ^ (8 * (15 - i))).sum := by
  simp only [byteAt_toNat]
  exact (Nat.mod_eq_of_lt B.isLt).symm.trans (sum_base256_digits B.toNat 16).symm

theorem be128_blk {v : Nat} (hv : v < 2 ^ 128) : be128 (blk v) = v := by
  rw [be128, blk, BitVec.toNat_ofNat, Nat.mod_eq_of_lt hv]

theorem blk_be128 (B : Block) : blk (be128 B) = B := by
  rw [be128, blk, BitVec.ofNat_toNat, BitVec.setWidth_eq]

/-- The big-endian word `j` of a block, bytes `4 j` to `4 j + 3` (00_scope.md R9). -/
def wordAt (B : Block) (j : Nat) : Nat :=
  be32 (byteAt B (4 * j)) (byteAt B (4 * j + 1)) (byteAt B (4 * j + 2)) (byteAt B (4 * j + 3))

/-- Sixteen weighted terms in groups of four. The base is a variable, so that no power is a numeral: the kernel would
unfold a product with `2 ^ 120` step by step. -/
theorem sum_bytes_eq_sum_words (f : Nat → Nat) (b : Nat) :
    ((List.range 16).map fun i => f i * b ^ (8 * (15 - i))).sum =
      (f 0 * b ^ 24 + f 1 * b ^ 16 + f 2 * b ^ 8 + f 3) * b ^ 96 +
      (f 4 * b ^ 24 + f 5 * b ^ 16 + f 6 * b ^ 8 + f 7) * b ^ 64 +
      (f 8 * b ^ 24 + f 9 * b ^ 16 + f 10 * b ^ 8 + f 11) * b ^ 32 +
      (f 12 * b ^ 24 + f 13 * b ^ 16 + f 14 * b ^ 8 + f 15) := by
  simp only [List.range_succ, List.range_zero, List.nil_append, List.cons_append, List.map_cons, List.map_nil,
    List.sum_cons, List.sum_nil]
  ring

theorem be128_eq_sum_words (B : Block) :
    be128 B = wordAt B 0 * 2 ^ 96 + wordAt B 1 * 2 ^ 64 + wordAt B 2 * 2 ^ 32 + wordAt B 3 := by
  rw [be128_eq_sum_bytes, sum_bytes_eq_sum_words fun i => (byteAt B i).toNat]
  rfl

theorem be32_eq_sum_bytes (b0 b1 b2 b3 : Byte) :
    be32 b0 b1 b2 b3 = b0.toNat * 2 ^ 24 + b1.toNat * 2 ^ 16 + b2.toNat * 2 ^ 8 + b3.toNat := rfl

/-- Settles O34: the sum over the bytes is the base-256 expansion, and the four words group its sixteen terms. -/
theorem blocksAreBigEndian : Obligations.BlocksAreBigEndian :=
  ⟨be32_eq_sum_bytes, be128_eq_sum_bytes, fun _ => be128_blk, blk_be128, be128_eq_sum_words⟩

/-- Settles O35, each part by the law of that operation on bytes. -/
theorem reversalAndPaddingBytes : Obligations.ReversalAndPaddingBytes :=
  ⟨byteAt_rev, byteAt_pad0, fun _ _ => block_ext, rev_rev, rev_xor⟩

/-! ### The results of a Cymric2 command -/

/-- `cy2_encrypt` on the operand bytes of register blocks (41_cymric_engine.md R129). -/
theorem cy2Encrypt_registers (E : Cipher) (N A D : Block) {nlen alen dlen : Nat} (hd : dlen ≤ 16)
    (hna : nlen + alen ≤ 15) :
    cy2Encrypt E (bytes N 0 nlen) (bytes A 0 alen) (bytes D 0 dlen) =
      .ok (bytes (pad0 D dlen ^^^ E .slot0 (p0 N A nlen alen dlen) ^^^ E .slot0 (p1 N A nlen alen dlen)) 0 dlen,
        E .slot1 (tagPreimage (E .slot0 (p0 N A nlen alen dlen)) (pad0 D dlen) dlen)) := by
  have hok : ¬ (16 < dlen ∨ 15 < nlen + alen) := by omega
  simp only [cy2Encrypt, bytes_length, if_neg hok, pad0String_bytes, pad10String_bytes D dlen hd, tagPreimage,
    pad10_pad0 D dlen hd, p0, p1]

/-- `cy2_decrypt` on the operand bytes of register blocks (41_cymric_engine.md R129). -/
theorem cy2Decrypt_registers (E : Cipher) (N A D G : Block) {nlen alen dlen : Nat} (hd : dlen ≤ 16)
    (hna : nlen + alen ≤ 15) :
    cy2Decrypt E (bytes N 0 nlen) (bytes A 0 alen) (bytes D 0 dlen) G =
      if ctDiff (E .slot1 (tagPreimage (E .slot0 (p0 N A nlen alen dlen)) (cipherBody (pad0 D dlen)
          (E .slot0 (p0 N A nlen alen dlen)) (E .slot0 (p1 N A nlen alen dlen)) dlen) dlen)) G = 0#8 then
        .ok (bytes (pad0 D dlen ^^^ E .slot0 (p0 N A nlen alen dlen) ^^^ E .slot0 (p1 N A nlen alen dlen)) 0 dlen)
      else .authFailure := by
  have hok : ¬ (16 < dlen ∨ 15 < nlen + alen) := by omega
  simp only [cy2Decrypt, bytes_length, if_neg hok, pad0String_bytes, pad10String_bytes _ dlen hd, tagPreimage,
    cipherBody, pad10_pad0 _ dlen hd, p0, p1]

/-- What waits in AE_WAIT2 is the command in `CMD`, with good lengths (10_state.md R37). -/
theorem Inv.tagCall_of_decode {E : Cipher} {s : State} {i : Instr} {nlen alen dlen : Byte} (hinv : Inv E s)
    (hp : s.phase = .aeWait2) (hdec : decode s.cmd = .ok i) (hi : i = .cy2enc nlen alen dlen ∨ i = .cy2dec nlen alen dlen) :
    (dlen.toNat ≤ 16 ∧ nlen.toNat + alen.toNat ≤ 15) ∧ TagCall E s nlen alen dlen := by
  obtain ⟨nlen', alen', dlen', hcy, hlen, hcall⟩ := hinv.tag_call hp
  obtain ⟨rfl, rfl, rfl⟩ := isCymric2_unique hcy hdec hi
  exact ⟨(lengthsBad_eq_false _ _ _).1 hlen, hcall⟩

/-- The answer that stands in AE_WAIT2 is the cipher's on the tag pre-image (10_state.md R39). -/
theorem TagCall.answer {E : Cipher} {s : State} {nlen alen dlen : Byte} (hcall : TagCall E s nlen alen dlen)
    (hv : s.crsp.valid = true) : s.crsp.out0 = E .slot1 s.tT := by
  rcases hcall.port with ⟨-, hno⟩ | ⟨-, hans⟩
  · simp [hno] at hv
  · rw [hans]

/-- The last step of CY2ENC (10_state.md R38). -/
theorem exec_cy2enc_aeWait2 {s : State} (nlen alen dlen : Byte) (hp : s.phase = .aeWait2) (hv : s.crsp.valid = true) :
    exec (.cy2enc nlen alen dlen) s = .next (encryptFinish dlen.toNat s) := by
  simp only [exec, execCy2enc, hp, onAnswer, hv, if_true]

/-- The last step of CY2DEC (10_state.md R38). -/
theorem exec_cy2dec_aeWait2 {s : State} (nlen alen dlen : Byte) (hp : s.phase = .aeWait2) (hv : s.crsp.valid = true) :
    exec (.cy2dec nlen alen dlen) s = .next (decryptFinish s) := by
  simp only [exec, execCy2dec, hp, onAnswer, hv, if_true]

theorem decryptFinish_of_equal {s : State} (h : ctDiff s.crsp.out0 s.tagin = 0#8) :
    decryptFinish s = complete .ok { s with dout := s.tM } := if_pos h

theorem decryptFinish_of_unequal {s : State} (h : ctDiff s.crsp.out0 s.tagin ≠ 0#8) :
    decryptFinish s = complete .authFailure { s with dout := 0 } := if_neg h

/-- A sequencer's step on a legal word is the command it decodes to. -/
theorem stepWith_of_decode {E : Cipher} {s : State} {i : Instr} (hg : nextAgent s = .sequencer)
    (hdec : decode s.cmd = .ok i) : stepWith E s = exec i (popSchedule s) :=
  (stepWith_of_nextAgent hg).trans (sequencerMove_of_decode (s := popSchedule s) hdec)

/-- The last answer of CY2ENC and the temporaries give the ciphertext and the tag of `cy2_encrypt`
(41_cymric_engine.md R130). -/
theorem encryption_result {E : Cipher} {s : State} {nlen alen dlen : Byte} (hinv : Inv E s) (hp : s.phase = .aeWait2)
    (hv : s.crsp.valid = true) (hdec : decode s.cmd = .ok (.cy2enc nlen alen dlen)) :
    ∃ C, cy2Encrypt E (bytes s.n 0 nlen.toNat) (bytes s.a 0 alen.toNat) (bytes s.din 0 dlen.toNat) =
        .ok (C, s.crsp.out0) ∧ pad0String C = cipherBody s.tM s.tY0 s.tY1 dlen.toNat := by
  obtain ⟨⟨hd, hna⟩, hcall⟩ := hinv.tagCall_of_decode hp hdec (.inl rfl)
  rw [hcall.answer hv, hcall.tT, hcall.encryption hdec, hcall.tY0, hcall.tY1]
  exact ⟨_, cy2Encrypt_registers E s.n s.a s.din hd hna, pad0String_bytes _ _⟩

/-- The comparison of CY2DEC decides as `cy2_decrypt` does, and `T_M` holds its message (41_cymric_engine.md R131). -/
theorem decryption_result {E : Cipher} {s : State} {nlen alen dlen : Byte} (hinv : Inv E s) (hp : s.phase = .aeWait2)
    (hv : s.crsp.valid = true) (hdec : decode s.cmd = .ok (.cy2dec nlen alen dlen)) :
    ∃ m, cy2Decrypt E (bytes s.n 0 nlen.toNat) (bytes s.a 0 alen.toNat) (bytes s.din 0 dlen.toNat) s.tagin =
        (if ctDiff s.crsp.out0 s.tagin = 0#8 then .ok m else .authFailure) ∧ pad0String m = s.tM := by
  obtain ⟨⟨hd, hna⟩, hcall⟩ := hinv.tagCall_of_decode hp hdec (.inr rfl)
  rw [hcall.answer hv, hcall.tT, hcall.decryption hdec, hcall.tY0, hcall.tY1]
  exact ⟨_, cy2Decrypt_registers E s.n s.a s.din s.tagin hd hna, pad0String_bytes _ _⟩

/-- Settles O56: the invariant holds the construction's intermediates, and the last step reads them. -/
theorem resultsUnderEveryInterleaving : Obligations.ResultsUnderEveryInterleaving := by
  intro E s nlen alen dlen hinv hp hv hg
  refine ⟨fun hdec => ?_, fun hdec => ?_⟩
  · obtain ⟨C, hres, hC⟩ := encryption_result hinv hp hv hdec
    have hstep := (stepWith_of_decode (E := E) hg hdec).trans (exec_cy2enc_aeWait2 nlen alen dlen hp hv)
    exact ⟨C, _, _, hres, hstep, hC.symm, rfl, rfl⟩
  · obtain ⟨m, hres, hm⟩ := decryption_result hinv hp hv hdec
    have hstep := (stepWith_of_decode (E := E) hg hdec).trans (exec_cy2dec_aeWait2 nlen alen dlen hp hv)
    by_cases htag : ctDiff s.crsp.out0 s.tagin = 0#8
    · rw [decryptFinish_of_equal (s := popSchedule s) htag] at hstep
      exact ⟨.ok m, _, hres.trans (if_pos htag), hstep, rfl, .inl ⟨m, rfl, hm.symm, rfl⟩⟩
    · rw [decryptFinish_of_unequal (s := popSchedule s) htag] at hstep
      exact ⟨.authFailure, _, hres.trans (if_neg htag), hstep, rfl, .inr ⟨rfl, rfl, rfl⟩⟩

end Sys2Proof.Machine

/-! PROOFS. The state family (10_state.md): the invariant, the frames of the commands, and each phase's step. -/

namespace Sys2Proof.Machine

/-! ### States that meet the invariant -/

/-- An idle state meets the invariant where nothing hidden survives and `RC` is legal (10_state.md R33, R34). -/
theorem Inv.of_idle {E : Cipher} {s : State} (hp : s.phase = .idle) (hb : s.status.busy = false)
    (hrc : ∃ rc : ResultCode, s.status.rc = rc.byte) (hclear : HiddenClear s) : Inv E s where
  idle_iff := by simp [hp, hb]
  busy_flags := by simp [hb]
  rc_legal := hrc
  idle_clear _ := hclear
  dispatch_clear := by simp [hp]
  first_call := by simp [hp]
  tag_call := by simp [hp]

theorem inv_complete (E : Cipher) (rc : ResultCode) (s : State) : Inv E (complete rc s) :=
  .of_idle rfl rfl ⟨rc, rfl⟩ (hiddenClear_complete rc s)

theorem inv_resetBlock (E : Cipher) (s : State) : Inv E (resetBlock s) :=
  .of_idle rfl rfl ⟨.ok, rfl⟩ ⟨rfl, rfl, rfl, rfl, rfl, rfl⟩

/-- Accepting a command word where nothing hidden stands keeps the invariant (10_state.md R35). -/
theorem inv_accept (E : Cipher) (w : Word) {s : State} (hclear : HiddenClear s) : Inv E (accept w s) where
  idle_iff := by simp
  busy_flags _ := ⟨rfl, rfl⟩
  rc_legal := ⟨.ok, rfl⟩
  idle_clear := by simp
  dispatch_clear _ := ⟨hclear.tY0, hclear.tY1, hclear.tM, hclear.tT, hclear.creq, hclear.crsp⟩
  first_call := by simp
  tag_call := by simp

/-! ### Moves inside a command in flight -/

theorem Inv.busy_of_phase {E : Cipher} {s : State} (hinv : Inv E s) (hp : s.phase ≠ .idle) : s.status.busy = true := by
  simpa using mt hinv.idle_iff.2 hp

/-- A move that leaves STATUS as it is may take a command in flight to a wait phase, or leave it there. -/
theorem Inv.to_wait {E : Cipher} {s t : State} {nlen alen dlen : Byte} (hinv : Inv E s) (hp : s.phase ≠ .idle)
    (hst : t.status = s.status) (hcy : IsCymric2 t.cmd nlen alen dlen) (hlen : lengthsBad nlen alen dlen = false)
    (hcall : (t.phase = .aeWait1 ∧ FirstCall E t nlen alen dlen) ∨ (t.phase = .aeWait2 ∧ TagCall E t nlen alen dlen)) :
    Inv E t := by
  have hwait : t.phase ≠ .idle ∧ t.phase ≠ .dispatch := by rcases hcall with ⟨ht, -⟩ | ⟨ht, -⟩ <;> simp [ht]
  exact
    { idle_iff := by simp [hwait, hst, hinv.busy_of_phase hp]
      busy_flags := by simpa only [hst] using hinv.busy_flags
      rc_legal := by simpa only [hst] using hinv.rc_legal
      idle_clear := fun ht => absurd ht hwait.1
      dispatch_clear := fun ht => absurd ht hwait.2
      first_call := fun ht => ⟨nlen, alen, dlen, hcy, hlen, (hcall.resolve_right (by simp [ht])).2⟩
      tag_call := fun ht => ⟨nlen, alen, dlen, hcy, hlen, (hcall.resolve_left (by simp [ht])).2⟩ }

/-- The invariant looks neither at `OVR` nor at the outside world's fields. -/
theorem Inv.with_ovr_and_outside {E : Cipher} {s : State} (hinv : Inv E s) (ovr : Bool) (queue : List HostAction)
    (sched : List Agent) (reads : List (RegNum × RegValue)) :
    Inv E { s with
      status := { s.status with ovr := ovr }, hostQueue := queue, schedule := sched, reads := reads } where
  idle_iff := hinv.idle_iff
  busy_flags := hinv.busy_flags
  rc_legal := hinv.rc_legal
  idle_clear hp := by
    obtain ⟨h0, h1, hm, ht, hreq, hrsp⟩ := hinv.idle_clear hp
    exact ⟨h0, h1, hm, ht, hreq, hrsp⟩
  dispatch_clear hp := by
    obtain ⟨h0, h1, hm, ht, hreq, hrsp⟩ := hinv.dispatch_clear hp
    exact ⟨h0, h1, hm, ht, hreq, hrsp⟩
  first_call hp := by
    obtain ⟨nlen, alen, dlen, hcy, hlen, h0, h1, hm, ht, hport⟩ := hinv.first_call hp
    exact ⟨nlen, alen, dlen, hcy, hlen, h0, h1, hm, ht, hport⟩
  tag_call hp := by
    obtain ⟨nlen, alen, dlen, hcy, hlen, h0, h1, henc, hdec, ht, hport⟩ := hinv.tag_call hp
    exact ⟨nlen, alen, dlen, hcy, hlen, h0, h1, henc, hdec, ht, hport⟩

theorem Inv.with_outside {E : Cipher} {s : State} (hinv : Inv E s) (queue : List HostAction) (sched : List Agent)
    (reads : List (RegNum × RegValue)) : Inv E { s with hostQueue := queue, schedule := sched, reads := reads } :=
  hinv.with_ovr_and_outside s.status.ovr queue sched reads

/-! ### The collaborator -/

/-- The answer to the dual-block request is the cipher's on `P0` and `P1` (10_state.md R39). -/
theorem FirstCall.answered {E : Cipher} {s : State} {nlen alen dlen : Byte} (hcall : FirstCall E s nlen alen dlen)
    (hv : s.creq.valid = true) :
    FirstCall E { s with
      creq := ⟨false, s.creq.ksel, s.creq.in0, s.creq.in1⟩
      crsp := ⟨true, E s.creq.ksel s.creq.in0, E s.creq.ksel s.creq.in1⟩ } nlen alen dlen := by
  obtain ⟨h0, h1, hm, ht, ⟨hreq, -⟩ | ⟨hreq, -⟩⟩ := hcall
  · refine ⟨h0, h1, hm, ht, .inr ?_⟩
    rw [hreq]
    exact ⟨rfl, rfl⟩
  · simp [hreq] at hv

/-- The answer to the tag request is the cipher's on `T` (10_state.md R39). -/
theorem TagCall.answered {E : Cipher} {s : State} {nlen alen dlen : Byte} (hcall : TagCall E s nlen alen dlen)
    (hv : s.creq.valid = true) :
    TagCall E { s with
      creq := ⟨false, s.creq.ksel, s.creq.in0, s.creq.in1⟩
      crsp := ⟨true, E s.creq.ksel s.creq.in0, E s.creq.ksel s.creq.in1⟩ } nlen alen dlen := by
  obtain ⟨h0, h1, henc, hdec, ht, ⟨hreq, -⟩ | ⟨hreq, -⟩⟩ := hcall
  · refine ⟨h0, h1, henc, hdec, ht, .inr ?_⟩
    rw [hreq]
    exact ⟨rfl, rfl⟩
  · simp [hreq] at hv

theorem HiddenClear.no_request {s : State} (hclear : HiddenClear s) : s.creq.valid = false := by
  rw [hclear.creq]
  rfl

theorem collaboratorMove_keeps_inv {E : Cipher} {s : State} (hinv : Inv E s) : Inv E (collaboratorMove E s) := by
  rcases collaboratorMove_cases E s with ⟨-, e⟩ | ⟨hv, hp, -⟩ | ⟨hv, hp, e⟩
  · rwa [e]
  · simp [(hinv.idle_clear hp).no_request] at hv
  · cases hph : s.phase with
    | idle => exact absurd hph hp
    | dispatch => simp [(hinv.dispatch_clear hph).no_request] at hv
    | aeWait1 =>
      obtain ⟨nlen, alen, dlen, hcy, hlen, hcall⟩ := hinv.first_call hph
      exact e ▸ hinv.to_wait hp rfl hcy hlen (.inl ⟨hph, hcall.answered hv⟩)
    | aeWait2 =>
      obtain ⟨nlen, alen, dlen, hcy, hlen, hcall⟩ := hinv.tag_call hph
      exact e ▸ hinv.to_wait hp rfl hcy hlen (.inr ⟨hph, hcall.answered hv⟩)

/-! ### The sequencer -/

/-- The dual-block request of a command that has made nothing yet (10_state.md R36). -/
theorem HiddenClear.firstCall {E : Cipher} {s : State} (hclear : HiddenClear s) (nlen alen dlen : Byte) :
    FirstCall E { s with
      creq := ⟨true, .slot0, blockP0 s nlen alen dlen, blockP1 s nlen alen dlen⟩, phase := .aeWait1 } nlen alen dlen :=
  ⟨hclear.tY0, hclear.tY1, hclear.tM, hclear.tT, .inl ⟨rfl, hclear.crsp⟩⟩

/-- The answer that stands in AE_WAIT1 is the cipher's on `P0` and `P1` (10_state.md R39). -/
theorem FirstCall.answer {E : Cipher} {s : State} {nlen alen dlen : Byte} (hcall : FirstCall E s nlen alen dlen)
    (hv : s.crsp.valid = true) :
    s.crsp = ⟨true, E .slot0 (blockP0 s nlen alen dlen), E .slot0 (blockP1 s nlen alen dlen)⟩ := by
  rcases hcall.port with ⟨-, hno⟩ | ⟨-, hans⟩
  · simp [hno, CipherAnswer.cleared] at hv
  · exact hans

/-- The AE_WAIT1 step stores the construction's intermediates and asks for the tag (10_state.md R37). -/
theorem FirstCall.tagCall {E : Cipher} {s : State} {nlen alen dlen : Byte} {M : Block} {i : Instr}
    (hcall : FirstCall E s nlen alen dlen) (hv : s.crsp.valid = true) (hdec : decode s.cmd = .ok i)
    (hM : (i = .cy2enc nlen alen dlen ∧ M = messageOfEncryption s dlen.toNat) ∨
      (i = .cy2dec nlen alen dlen ∧ M = messageOfDecryption s dlen.toNat)) :
    TagCall E (aeadWait1 M dlen.toNat s) nlen alen dlen where
  tY0 := congrArg CipherAnswer.out0 (hcall.answer hv)
  tY1 := congrArg CipherAnswer.out1 (hcall.answer hv)
  encryption henc := by
    rcases hM with ⟨-, hM⟩ | ⟨rfl, -⟩
    · exact hM
    · cases hdec.symm.trans henc
  decryption hdec' := by
    rcases hM with ⟨rfl, -⟩ | ⟨-, hM⟩
    · cases hdec.symm.trans hdec'
    · exact hM
  tT := rfl
  port := .inl ⟨rfl, rfl⟩

/-- Every completion is idle with nothing hidden, so the two steps to a wait phase are all there is to show. -/
theorem SequencerEffect.keeps_inv {E : Cipher} {i : Instr} {s t : State} (heff : SequencerEffect i s t)
    (hdec : decode s.cmd = .ok i) (hinv : Inv E s) : Inv E t := by
  cases heff with
  | still => exact hinv
  | bare | cleared | accumulated | keyed | encrypted | opened | rejected => exact inv_complete E _ _
  | requested nlen alen dlen hp hi hlen =>
    have hcy : IsCymric2 s.cmd nlen alen dlen := by rcases hi with rfl | rfl <;> simp [IsCymric2, hdec]
    exact hinv.to_wait (by simp [hp]) rfl hcy hlen (.inl ⟨rfl, (hinv.dispatch_clear hp).firstCall nlen alen dlen⟩)
  | answered nlen alen dlen M hp hv hM =>
    obtain ⟨nlen', alen', dlen', hcy, hlen, hcall⟩ := hinv.first_call hp
    obtain ⟨rfl, rfl, rfl⟩ := isCymric2_unique hcy hdec (hM.imp And.left And.left)
    exact hinv.to_wait (by simp [hp]) rfl hcy hlen (.inr ⟨rfl, hcall.tagCall hv hdec hM⟩)

theorem sequencerMove_keeps_inv {E : Cipher} {s t : State} (hinv : Inv E s) (hmove : sequencerMove s = .next t) :
    Inv E t := by
  rcases sequencerMove_effect hmove with ⟨i, hdec, heff⟩ | ⟨-, -, ⟨-, rfl⟩ | ⟨-, rfl⟩⟩
  · exact heff.keeps_inv hdec hinv
  · exact inv_complete E _ s
  · exact hinv

/-! ### The host -/

theorem WriteEffect.keeps_inv {E : Cipher} {s t : State} (heff : WriteEffect s t) (hinv : Inv E s) : Inv E t := by
  cases heff with
  | dropped => exact hinv.with_ovr_and_outside true s.hostQueue s.schedule s.reads
  | accepted w hb => exact inv_accept E w (hinv.idle_clear (hinv.idle_iff.2 hb))
  | statusCleared w hb | control b hb | data y h x n a din tagin hb =>
    have hp := hinv.idle_iff.2 hb
    obtain ⟨h0, h1, hm, ht, hreq, hrsp⟩ := hinv.idle_clear hp
    exact .of_idle hp hb hinv.rc_legal ⟨h0, h1, hm, ht, hreq, hrsp⟩

theorem HostEffect.keeps_inv {E : Cipher} {s t : State} (heff : HostEffect s t) (hinv : Inv E s) : Inv E t := by
  cases heff with
  | nothing => exact hinv
  | hasRead i v rest => exact hinv.with_outside rest s.schedule ((i, v) :: s.reads)
  | wrote i v rest _ _ _ _ hw => exact hw.keeps_inv (hinv.with_outside rest s.schedule s.reads)
  | waited rest => exact hinv.with_outside _ s.schedule _
  | wasReset => exact inv_resetBlock E _

/-! ### The invariant -/

/-- Settles O54: the reset state is idle and clear. -/
theorem invariantAtReset : Obligations.InvariantAtReset := fun E => inv_resetBlock E State.reset

/-- Settles O55: using up a schedule entry changes nothing the invariant looks at, and then each agent's move keeps it. -/
theorem everyStepKeepsInvariant : Obligations.EveryStepKeepsInvariant := by
  intro E s t hinv hstep
  have hpop : Inv E (popSchedule s) := hinv.with_outside s.hostQueue s.schedule.tail s.reads
  rcases stepWith_cases hstep with ⟨-, heff⟩ | ⟨-, hmove⟩ | ⟨-, rfl⟩
  · exact heff.keeps_inv hpop
  · exact sequencerMove_keeps_inv hpop hmove
  · exact collaboratorMove_keeps_inv hpop

/-! ### What the commands leave unchanged -/

/-- No command touches CMD, CTRL, OVR or the outside world (10_state.md R46). -/
theorem SequencerEffect.frame {i : Instr} {s t : State} (heff : SequencerEffect i s t) :
    SameOutside s t ∧ t.cmd = s.cmd ∧ t.ie = s.ie ∧ t.status.ovr = s.status.ovr := by
  cases heff <;> exact ⟨⟨rfl, rfl, rfl⟩, rfl, rfl, rfl⟩

/-- Of the commands only CLEAR writes an operand register (70_reset_and_hazards.md R185). -/
theorem SequencerEffect.operands_kept {i : Instr} {s t : State} (heff : SequencerEffect i s t) (hi : i ≠ .clear) :
    t.x = s.x ∧ t.n = s.n ∧ t.a = s.a ∧ t.din = s.din ∧ t.tagin = s.tagin := by
  cases heff with
  | cleared _ hc => exact absurd hc hi
  | _ => exact ⟨rfl, rfl, rfl, rfl, rfl⟩

/-- Only CLEAR and PVKEY write `H`. -/
theorem SequencerEffect.h_kept {i : Instr} {s t : State} (heff : SequencerEffect i s t) (hc : i ≠ .clear)
    (hk : i ≠ .pvkey) : t.h = s.h := by
  cases heff with
  | cleared _ hi => exact absurd hi hc
  | keyed _ _ hi => exact absurd hi hk
  | _ => rfl

/-- Only CLEAR, GFMAC and PVMAC write `Y`. -/
theorem SequencerEffect.y_kept {i : Instr} {s t : State} (heff : SequencerEffect i s t) (hc : i ≠ .clear)
    (hm : ∀ xlen, i ≠ .gfmac xlen ∧ i ≠ .pvmac xlen) : t.y = s.y := by
  cases heff with
  | cleared _ hi => exact absurd hi hc
  | accumulated xlen _ _ hi => exact absurd hi (not_or.2 (hm xlen))
  | _ => rfl

/-- Only CLEAR and the completing AE_WAIT2 step of a Cymric2 command write `DOUT`. -/
theorem SequencerEffect.dout_kept_or {i : Instr} {s t : State} (heff : SequencerEffect i s t) (hc : i ≠ .clear) :
    t.dout = s.dout ∨ (s.phase = .aeWait2 ∧ t.phase = .idle ∧ (t.status.rc = 0x00#8 ∨ t.status.rc = 0x01#8) ∧
      ∃ nlen alen dlen, i = .cy2enc nlen alen dlen ∨ i = .cy2dec nlen alen dlen) := by
  cases heff with
  | cleared _ hi => exact absurd hi hc
  | encrypted nlen alen dlen hp _ hi => exact .inr ⟨hp, rfl, .inl rfl, nlen, alen, dlen, .inl hi⟩
  | opened nlen alen dlen hp _ hi => exact .inr ⟨hp, rfl, .inl rfl, nlen, alen, dlen, .inr hi⟩
  | rejected nlen alen dlen hp _ hi => exact .inr ⟨hp, rfl, .inr rfl, nlen, alen, dlen, .inr hi⟩
  | _ => exact .inl rfl

/-- Only CLEAR and the completing AE_WAIT2 step of CY2ENC write `TAGOUT`. -/
theorem SequencerEffect.tagout_kept_or {i : Instr} {s t : State} (heff : SequencerEffect i s t) (hc : i ≠ .clear) :
    t.tagout = s.tagout ∨ (s.phase = .aeWait2 ∧ t.phase = .idle ∧ t.status.rc = 0x00#8 ∧
      ∃ nlen alen dlen, i = .cy2enc nlen alen dlen) := by
  cases heff with
  | cleared _ hi => exact absurd hi hc
  | encrypted nlen alen dlen hp _ hi => exact .inr ⟨hp, rfl, rfl, nlen, alen, dlen, hi⟩
  | _ => exact .inl rfl

/-- Settles O29: each part is the law of the registers it names, and no Field Unit command is a Cymric2 command. -/
theorem fieldUnitFrame : Obligations.FieldUnitFrame := by
  intro i s t xlen hi hstep
  have heff := exec_effect hstep
  obtain ⟨hout, hcmd, hie, hovr⟩ := heff.frame
  refine ⟨hout, hcmd, hie, hovr, fun hc => ?_, fun hmac => ?_, fun hkey => ?_⟩
  · obtain ⟨hx, hn, ha, hdin, htagin⟩ := heff.operands_kept hc
    have hdout := (heff.dout_kept_or hc).resolve_right fun ⟨_, _, _, _, _, _, hcy⟩ => by
      rcases hi with rfl | rfl | rfl | rfl <;> simp at hcy
    have htagout := (heff.tagout_kept_or hc).resolve_right fun ⟨_, _, _, _, _, _, hcy⟩ => by
      rcases hi with rfl | rfl | rfl | rfl <;> simp at hcy
    exact ⟨hx, hn, ha, hdin, htagin, hdout, htagout⟩
  · exact heff.h_kept (by rcases hmac with rfl | rfl <;> simp) (by rcases hmac with rfl | rfl <;> simp)
  · exact heff.y_kept (by simp [hkey]) (by simp [hkey])

/-- Settles O30: the laws of the registers, read for the two Cymric2 commands. -/
theorem aeadEngineFrame : Obligations.AeadEngineFrame := by
  intro i s t nlen alen dlen hi hstep
  have heff := exec_effect hstep
  have hc : i ≠ .clear := by rcases hi with rfl | rfl <;> simp
  have hk : i ≠ .pvkey := by rcases hi with rfl | rfl <;> simp
  have hm : ∀ xlen, i ≠ .gfmac xlen ∧ i ≠ .pvmac xlen := by rcases hi with rfl | rfl <;> simp
  obtain ⟨hout, hcmd, hie, hovr⟩ := heff.frame
  obtain ⟨hx, hn, ha, hdin, htagin⟩ := heff.operands_kept hc
  refine ⟨hout, hcmd, hie, hovr, heff.y_kept hc hm, heff.h_kept hc hk, hx, hn, ha, hdin, htagin, ?_, ?_⟩
  · exact (heff.dout_kept_or hc).imp_right fun ⟨hp, hidle, hrc, _⟩ => ⟨hp, hidle, hrc⟩
  · refine (heff.tagout_kept_or hc).imp_right fun ⟨hp, hidle, hrc, _, _, _, henc⟩ => ⟨?_, hp, hidle, hrc⟩
    exact hi.resolve_right (by simp [henc])

/-! ### Moves that are not enabled -/

/-- An effect that changes the state is a step the phase and the answer latch enable (10_state.md R36 to R38). -/
theorem SequencerEffect.eq_or_enabled {i : Instr} {s t : State} (heff : SequencerEffect i s t) :
    t = s ∨ sequencerEnabled s = true := by
  cases heff with
  | still => exact .inl rfl
  | bare _ hp | cleared hp | accumulated _ _ hp | keyed _ hp | requested _ _ _ hp =>
    exact .inr (by simp [sequencerEnabled, hp])
  | answered _ _ _ _ hp hv | encrypted _ _ _ hp hv | opened _ _ _ hp hv | rejected _ _ _ hp hv =>
    exact .inr (by simp [sequencerEnabled, hp, hv])

theorem exec_of_not_enabled (i : Instr) {s : State} (hoff : sequencerEnabled s = false) : exec i s = .next s := by
  obtain ⟨t, ht⟩ := exec_answers i s
  rw [ht, (exec_effect ht).eq_or_enabled.resolve_right (by simp [hoff])]

theorem onDispatch_of_not_dispatch {s : State} (t : State) (hp : s.phase ≠ .dispatch) : onDispatch s t = .next s := by
  rw [onDispatch, if_neg hp]

/-- Settles O28: each move's own enabling condition fails. -/
theorem nothingMovesUnlessEnabled : Obligations.NothingMovesUnlessEnabled := by
  refine ⟨fun i s => ⟨fun hp => ?_, fun hp hv => ?_⟩, fun i s xlen hi hp => ?_, fun s e he hp => ?_, fun E s hv => ?_⟩
  · exact exec_of_not_enabled i (by simp [sequencerEnabled, hp])
  · exact exec_of_not_enabled i (by rcases hp with hp | hp <;> simp [sequencerEnabled, hp, hv])
  · rcases hi with rfl | rfl | rfl | rfl <;> exact onDispatch_of_not_dispatch _ hp
  · rw [sequencerMove, he]
    exact onDispatch_of_not_dispatch _ hp
  · rcases collaboratorMove_cases E s with ⟨-, e⟩ | ⟨hv', -⟩ | ⟨hv', -⟩
    · exact e
    · simp [hv] at hv'
    · simp [hv] at hv'

/-! ### The steps of a Cymric2 command -/

/-- Both Cymric2 commands begin with the same DISPATCH step (10_state.md R36). -/
theorem exec_cymric2_dispatch {i : Instr} {s : State} {nlen alen dlen : Byte}
    (hi : i = .cy2enc nlen alen dlen ∨ i = .cy2dec nlen alen dlen) (hp : s.phase = .dispatch) :
    exec i s = .next (aeadDispatch nlen alen dlen s) := by
  rcases hi with rfl | rfl
  · simp only [exec, execCy2enc, hp]
  · simp only [exec, execCy2dec, hp]

/-- The AE_WAIT1 step of CY2ENC (10_state.md R37). -/
theorem exec_cy2enc_aeWait1 {s : State} (nlen alen dlen : Byte) (hp : s.phase = .aeWait1) (hv : s.crsp.valid = true) :
    exec (.cy2enc nlen alen dlen) s = .next (aeadWait1 (messageOfEncryption s dlen.toNat) dlen.toNat s) := by
  simp only [exec, execCy2enc, hp, onAnswer, hv, if_true]

/-- The AE_WAIT1 step of CY2DEC (10_state.md R37). -/
theorem exec_cy2dec_aeWait1 {s : State} (nlen alen dlen : Byte) (hp : s.phase = .aeWait1) (hv : s.crsp.valid = true) :
    exec (.cy2dec nlen alen dlen) s = .next (aeadWait1 (messageOfDecryption s dlen.toNat) dlen.toNat s) := by
  simp only [exec, execCy2dec, hp, onAnswer, hv, if_true]

/-- Settles O25: the length check decides between the length error and the dual-block request. -/
theorem cymric2DispatchStep : Obligations.Cymric2DispatchStep := by
  intro s nlen alen dlen i hi hp
  rw [exec_cymric2_dispatch hi hp]
  refine ⟨fun hbad => ?_, fun hd hna => ?_⟩
  · rw [aeadDispatch, if_pos ((lengthsBad_iff nlen alen dlen).2 hbad), raise_eq_complete]
  · rw [aeadDispatch, if_neg (by simp [(lengthsBad_eq_false nlen alen dlen).2 ⟨hd, hna⟩])]
    rfl

/-- Settles O26: the rule's values are those of `aeadWait1`, written out. -/
theorem cymric2FirstAnswerStep : Obligations.Cymric2FirstAnswerStep := fun _ nlen alen dlen hp hv =>
  ⟨exec_cy2enc_aeWait1 nlen alen dlen hp hv, exec_cy2dec_aeWait1 nlen alen dlen hp hv⟩

/-- Settles O27: completion and the write of a result register commute. -/
theorem cymric2FinishStep : Obligations.Cymric2FinishStep := by
  intro s nlen alen dlen hp hv
  refine ⟨exec_cy2enc_aeWait2 nlen alen dlen hp hv, fun htag => ?_, fun htag => ?_⟩
  · rw [exec_cy2dec_aeWait2 nlen alen dlen hp hv, decryptFinish_of_equal htag]
    rfl
  · rw [exec_cy2dec_aeWait2 nlen alen dlen hp hv, decryptFinish_of_unequal htag]
    rfl

/-! ### The step, reset, the collaborator and STATUS -/

/-- The host's question to the decoder is the decoder's answer on the word (log entry 14). -/
theorem decode_of_decodeTableWord {nbits w : Nat} {i : Instr} (h : decodeTableWord nbits w = some i) :
    decode (BitVec.ofNat 32 w) = .ok i := by
  unfold decodeTableWord at h
  split at h
  · cases hdec : decode (BitVec.ofNat 32 w) with
    | ok j => simpa [hdec, Except.toOption] using h
    | error e => simp [hdec, Except.toOption] at h
  · cases h

/-- Settles O7: the placed word is what the decoder sees, and the schedule entry put in front is used up. -/
theorem stepRunsDecodedCommand : Obligations.StepRunsDecodedCommand := by
  refine ⟨fun E s i hdec hg => stepWith_of_decode hg hdec, fun s => rfl, fun s i nbits w hw => ?_⟩
  exact stepWith_of_decode (s := s.withFetchWord nbits w) rfl (decode_of_decodeTableWord hw)

/-- Settles O15: the reset state is a literal. -/
theorem resetState : Obligations.ResetState := by
  unfold Obligations.ResetState
  decide

/-- Settles O18: the cases of the collaborator's move with a request standing. -/
theorem collaboratorAnswers : Obligations.CollaboratorAnswers := by
  intro E s hv
  rcases collaboratorMove_cases E s with ⟨hv', -⟩ | ⟨-, hp, e⟩ | ⟨-, hp, e⟩
  · simp [hv] at hv'
  · exact ⟨fun hne => absurd hp hne, fun _ => e⟩
  · exact ⟨fun _ => e, fun heq => absurd heq hp⟩

theorem flagBit_getLsbD (b : Bool) (i : Nat) : (flagBit b).getLsbD i = (decide (i = 0) && b) := by
  cases b <;> simp [flagBit, BitVec.getLsbD_one]

/-- Every bit of the word a host reads from STATUS (10_state.md R22). -/
theorem Status.word_getLsbD (st : Status) {i : Nat} (hi : i < 32) :
    st.word.getLsbD i = (decide (i = 0) && st.busy || decide (i = 1) && st.done || decide (i = 2) && st.ovr ||
      decide (8 ≤ i) && st.rc.getLsbD (i - 8)) := by
  have hone : (!decide (i < 1) && decide (i - 1 = 0)) = decide (i = 1) := by grind
  have htwo : (!decide (i < 2) && decide (i - 2 = 0)) = decide (i = 2) := by grind
  have hrc : (!decide (i < 8)) = decide (8 ≤ i) := by grind
  simp only [Status.word, BitVec.getLsbD_or, BitVec.getLsbD_shiftLeft, BitVec.getLsbD_setWidth, flagBit_getLsbD, hi,
    show i - 8 < 32 by omega, decide_true, Bool.true_and, ← Bool.and_assoc, hone, htwo, hrc]

/-- The bits of a field of the STATUS word. -/
theorem Status.word_field_getLsbD (st : Status) {start len i : Nat} (hi : i < len) (hlen : start + len ≤ 32) :
    (st.word.extractLsb' start len).getLsbD i = (decide (start + i = 0) && st.busy || decide (start + i = 1) && st.done ||
      decide (start + i = 2) && st.ovr || decide (8 ≤ start + i) && st.rc.getLsbD (start + i - 8)) := by
  rw [BitVec.getLsbD_extractLsb', st.word_getLsbD (by omega), decide_eq_true hi, Bool.true_and]

/-- Settles O12, bit by bit. -/
theorem statusWordLayout : Obligations.StatusWordLayout := by
  intro st
  refine ⟨(st.word_getLsbD (by decide)).trans (by simp), (st.word_getLsbD (by decide)).trans (by simp),
    (st.word_getLsbD (by decide)).trans (by simp), BitVec.eq_of_getLsbD_eq fun i hi => ?_,
    BitVec.eq_of_getLsbD_eq fun i hi => ?_, BitVec.eq_of_getLsbD_eq fun i hi => ?_⟩
  · rw [st.word_field_getLsbD hi (by decide)]
    simp [show 8 + i ≠ 1 by omega, show 8 + i ≠ 2 by omega]
  · rw [st.word_field_getLsbD hi (by decide)]
    simp [show 3 + i ≠ 1 by omega, show 3 + i ≠ 2 by omega, show ¬ 8 ≤ 3 + i by omega]
  · rw [st.word_field_getLsbD hi (by decide), BitVec.getLsbD_of_ge st.rc _ (by omega)]
    simp [show 16 + i ≠ 1 by omega, show 16 + i ≠ 2 by omega]

end Sys2Proof.Machine

/-! PROOFS. The memory family (20_memory.md): the register port's accesses, and the requests on the cipher port. -/

namespace Sys2Proof.Machine

/-! ### Which accesses the port knows -/

theorem assigned_iff (i : RegNum) : RegNum.assigned i = true ↔ i.toNat < 12 := decide_eq_true_iff

theorem fits_word_iff (w : Word) (i : RegNum) : (RegValue.word w).fits i = true ↔ i.toNat < 3 := decide_eq_true_iff

theorem fits_block_iff (b : Block) (i : RegNum) : (RegValue.block b).fits i = true ↔ 3 ≤ i.toNat := by
  simp [RegValue.fits, RegNum.isControl]

theorem write_wellFormed_iff (i : RegNum) (v : RegValue) :
    (HostAction.write i v).wellFormed = true ↔ i.toNat < 12 ∧ v.fits i = true := by
  rw [HostAction.wellFormed, Bool.and_eq_true, assigned_iff]

/-! ### Reads -/

theorem hostRead_of_regRead {s : State} {i : RegNum} {v : RegValue} (h : regRead s i = some v) :
    hostRead i s = .next { s with reads := (i, v) :: s.reads } := by rw [hostRead, h]

/-- Numbers 12 to 15 name no register (10_state.md R20). -/
theorem regRead_reserved (s : State) {i : RegNum} (hi : 12 ≤ i.toNat) : regRead s i = none := by
  unfold regRead
  split
  case h_13 => rfl
  all_goals omega

theorem hostRead_reserved (s : State) {i : RegNum} (hi : 12 ≤ i.toNat) :
    hostRead i s = .refused (.reservedRegister i) := by rw [hostRead, regRead_reserved s hi]

/-! ### Writes -/

theorem hostWrite_reserved (s : State) {i : RegNum} (v : RegValue) (hi : 12 ≤ i.toNat) :
    hostWrite i v s = .refused (.reservedRegister i) := by
  rw [hostWrite, if_neg (by rw [assigned_iff]; omega)]

theorem hostWrite_of_not_fits (s : State) {i : RegNum} {v : RegValue} (hi : i.toNat < 12) (hv : ¬ v.fits i = true) :
    hostWrite i v s = .fault (.widthMismatch i) := by
  rw [hostWrite, if_pos ((assigned_iff i).2 hi), if_neg hv]

theorem hostWrite_of_fits (s : State) {i : RegNum} {v : RegValue} (hi : i.toNat < 12) (hv : v.fits i = true) :
    hostWrite i v s = .next (regWrite s i v) := by
  rw [hostWrite, if_pos ((assigned_iff i).2 hi), if_pos hv]

theorem regWrite_of_busy {s : State} (hb : s.status.busy = true) (i : RegNum) (v : RegValue) :
    regWrite s i v = dropWrite s := if_pos hb

theorem hostWrite_word_of_idle {s : State} (hb : s.status.busy = false) {i : RegNum} (w : Word) (hi : i.toNat < 3) :
    hostWrite i (.word w) s = .next (writeControl s i w) := by
  rw [hostWrite_of_fits s (by omega) ((fits_word_iff w i).2 hi), regWrite, if_neg (by simp [hb])]

theorem hostWrite_block_of_idle {s : State} (hb : s.status.busy = false) {i : RegNum} (b : Block) (hlo : 3 ≤ i.toNat)
    (hhi : i.toNat < 12) : hostWrite i (.block b) s = .next (writeData s i b) := by
  rw [hostWrite_of_fits s hhi ((fits_block_iff b i).2 hlo), regWrite, if_neg (by simp [hb])]

/-! ### The statements about the register port -/

/-- Settles O9: the port knows the access, and the busy rule comes before the register number. -/
theorem busyWriteDropped : Obligations.BusyWriteDropped := by
  intro s i v hi hwf hb
  rw [hostWrite_of_fits s hi ((write_wellFormed_iff i v).1 hwf).2, regWrite_of_busy hb]
  rfl

/-- Settles O10: each register's line of `writeControl` or `writeData`. -/
theorem idleWriteEffects : Obligations.IdleWriteEffects := by
  intro s hb
  have hword (i : RegNum) (w : Word) (hi : i.toNat < 3) := hostWrite_word_of_idle hb w hi
  have hblock (i : RegNum) (b : Block) (hi : 3 ≤ i.toNat ∧ i.toNat < 12) := hostWrite_block_of_idle hb b hi.1 hi.2
  refine ⟨fun w => ⟨hword 0 w ?_, hword 1 w ?_, hword 2 w ?_⟩,
    fun b => ⟨hblock 3 b ?_, hblock 4 b ?_, hblock 5 b ?_, hblock 6 b ?_, hblock 7 b ?_, hblock 8 b ?_, hblock 9 b ?_,
      hblock 10 b ?_, hblock 11 b ?_⟩, fun i v => hostWrite_reserved s v⟩ <;> decide

/-- Settles O11: `regRead` asks for no flag, and each register number is a line of it. -/
theorem readsReturnRegisters : Obligations.ReadsReturnRegisters := by
  intro s i v hv
  apply hostRead_of_regRead
  rcases hv with ⟨rfl, rfl⟩ | ⟨rfl, rfl⟩ | ⟨rfl, rfl⟩ | ⟨rfl, rfl⟩ | ⟨rfl, rfl⟩ | ⟨rfl, rfl⟩ | ⟨rfl, rfl⟩ | ⟨rfl, rfl⟩ |
    ⟨rfl, rfl⟩ | ⟨rfl, rfl⟩ | ⟨rfl, rfl⟩ | ⟨rfl, rfl⟩ <;> rfl

/-- Settles O14: the reserved numbers first, then the two ways a value misses the register's width. -/
theorem unknownAccessStops : Obligations.UnknownAccessStops := by
  refine fun s i => ⟨fun hi => ⟨hostRead_reserved s hi, fun v => hostWrite_reserved s v hi⟩, fun b hi => ?_,
    fun w hlo hhi => ?_⟩
  · exact hostWrite_of_not_fits s (by omega) (by rw [fits_block_iff]; omega)
  · exact hostWrite_of_not_fits s hhi (by rw [fits_word_iff]; omega)

/-! ### The cipher port -/

/-- Settles O33: of the effects of a command every completion clears the request, and two make one. -/
theorem cipherRequestsMade : Obligations.CipherRequestsMade := by
  intro i s t hstep hnone hnew
  cases exec_effect hstep with
  | still => simp [hnone] at hnew
  | bare | cleared | accumulated | keyed | encrypted | opened | rejected => simp [CipherRequest.cleared] at hnew
  | requested nlen alen dlen hp hi hlen =>
    obtain ⟨hd, hna⟩ := (lengthsBad_eq_false nlen alen dlen).1 hlen
    exact ⟨nlen, alen, dlen, hi, .inl ⟨hp, rfl, hd, hna, rfl⟩⟩
  | answered nlen alen dlen M hp _ hM =>
    exact ⟨nlen, alen, dlen, hM.imp And.left And.left, .inr ⟨hp, rfl, rfl, rfl⟩⟩

end Sys2Proof.Machine

/-! PROOFS. The encoding family (30_encoding.md): encoder and decoder are inverse, the command table, and the host script
with its `wait`. -/

namespace Sys2Proof

/-! ### Encoder and decoder -/

/-- The encoder is a right inverse of the decoder (30_encoding.md R71, R76): the opcode picks the row, and the bits the row
fixes are zero. -/
theorem decode_encode (i : Instr) : decode (encode i) = .ok i := by
  cases i with
  | clear | pvkey => decide
  | gfmac xlen | pvmac xlen => simp [encode, Instr.opcode, decode, upperHalf_eq_zero]
  | cy2enc nlen alen dlen | cy2dec nlen alen dlen => simp [encode, Instr.opcode, decode]

/-- A word whose must-be-zero bits of format Z are zero (R71). -/
theorem commandWord_of_formatZ {w : Word} {opc : Byte} (ho : opcodeField w = opc) (hz : w.extractLsb' 8 24 = 0#24) :
    commandWord opc 0 0 0 = w := by
  obtain ⟨h1, h2, h3⟩ := (upperBytes_eq_zero w).1 hz
  have hw := commandWord_fields w
  rwa [ho, h1, h2, h3] at hw

/-- A word whose must-be-zero bits of format F are zero (R71). -/
theorem commandWord_of_formatF {w : Word} {opc : Byte} (ho : opcodeField w = opc) (hz : w.extractLsb' 16 16 = 0#16) :
    commandWord opc (field1 w) 0 0 = w := by
  obtain ⟨h2, h3⟩ := (upperHalf_eq_zero w).1 hz
  have hw := commandWord_fields w
  rwa [ho, h2, h3] at hw

/-- A word of format A has no must-be-zero bits (R71). -/
theorem commandWord_of_formatA {w : Word} {opc : Byte} (ho : opcodeField w = opc) :
    commandWord opc (field1 w) (field2 w) (field3 w) = w := ho ▸ commandWord_fields w

/-- The encoder is a left inverse of the decoder on legal words: each row fixes every bit it does not read. -/
theorem encode_of_decode {w : Word} {i : Instr} (h : decode w = .ok i) : encode i = w := by
  rcases decode_ok_cases h with ⟨rfl, ho, hz⟩ | ⟨rfl, ho, hz⟩ | ⟨rfl, ho, hz⟩ | ⟨rfl, ho, hz⟩ | ⟨rfl, ho⟩ | ⟨rfl, ho⟩
  · exact commandWord_of_formatZ ho hz
  · exact commandWord_of_formatF ho hz
  · exact commandWord_of_formatF ho hz
  · exact commandWord_of_formatZ ho hz
  · exact commandWord_of_formatA ho
  · exact commandWord_of_formatA ho

theorem decode_eq_ok_iff (w : Word) (i : Instr) : decode w = .ok i ↔ encode i = w :=
  ⟨encode_of_decode, fun h => h ▸ decode_encode i⟩

/-- Settles O1: the round trip needs no premise, since every command is well formed. -/
theorem decodeEncodeRoundTrip : Obligations.DecodeEncodeRoundTrip := fun i _ => decode_encode i

/-- Settles O2, by the rows of the decoder. -/
theorem encodeDecodeSameWord : Obligations.EncodeDecodeSameWord := fun _ _ => encode_of_decode

/-! ### The command table -/

/-- The column `mask` as a function of the opcode. -/
def maskOfOpcode (opc : Byte) : Word :=
  if opc = 0x01#8 ∨ opc = 0x12#8 then 0xFFFFFFFF#32
  else if opc = 0x10#8 ∨ opc = 0x11#8 then 0xFFFF00FF#32
  else 0x000000FF#32

theorem mask_eq_maskOfOpcode (i : Instr) : i.mask = maskOfOpcode i.opcode := by cases i <;> rfl

theorem matchWord_eq_commandWord (i : Instr) : i.matchWord = commandWord i.opcode 0 0 0 := by
  cases i <;> simp [Instr.matchWord, Instr.opcode, commandWord]

/-- The encoded word of every command stands in the command's row. -/
theorem encode_masked (i : Instr) : encode i &&& i.mask = i.matchWord := by
  have hrow : Laws.TableRow.Statement i := by
    cases i with
    | clear => exact Laws.TableRow.clear
    | gfmac xlen => exact Laws.TableRow.gfmac xlen
    | pvmac xlen => exact Laws.TableRow.pvmac xlen
    | pvkey => exact Laws.TableRow.pvkey
    | cy2enc nlen alen dlen => exact Laws.TableRow.cy2enc nlen alen dlen
    | cy2dec nlen alen dlen => exact Laws.TableRow.cy2dec nlen alen dlen
  exact (hrow (by cases i <;> rfl)).1

theorem commandWord_inj {a b c d a' b' c' d' : Byte} :
    commandWord a b c d = commandWord a' b' c' d' ↔ a = a' ∧ b = b' ∧ c = c' ∧ d = d' := by
  constructor
  · intro h
    exact ⟨by simpa using congrArg opcodeField h, by simpa using congrArg field1 h, by simpa using congrArg field2 h,
      by simpa using congrArg field3 h⟩
  · rintro ⟨rfl, rfl, rfl, rfl⟩
    rfl

@[simp] theorem opcodeField_and (v w : Word) : opcodeField (v &&& w) = opcodeField v &&& opcodeField w :=
  BitVec.extractLsb'_and

@[simp] theorem field1_and (v w : Word) : field1 (v &&& w) = field1 v &&& field1 w := BitVec.extractLsb'_and

@[simp] theorem field2_and (v w : Word) : field2 (v &&& w) = field2 v &&& field2 w := BitVec.extractLsb'_and

@[simp] theorem field3_and (v w : Word) : field3 (v &&& w) = field3 v &&& field3 w := BitVec.extractLsb'_and

theorem byte_and_ones (b : Byte) : b &&& 0xFF = b := BitVec.and_allOnes

/-- A word under a mask that keeps the opcode, byte by byte. -/
theorem masked_eq_iff (w : Word) (m1 m2 m3 opc : Byte) :
    w &&& commandWord 0xFF m1 m2 m3 = commandWord opc 0 0 0 ↔
      opcodeField w = opc ∧ field1 w &&& m1 = 0 ∧ field2 w &&& m2 = 0 ∧ field3 w &&& m3 = 0 := by
  rw [← commandWord_fields (w &&& commandWord 0xFF m1 m2 m3), commandWord_inj]
  simp only [opcodeField_and, field1_and, field2_and, field3_and, opcodeField_commandWord, field1_commandWord,
    field2_commandWord, field3_commandWord, byte_and_ones]

/-- A word in the row of a command is the encoding of a command of that row, its operands the word's own fields. -/
theorem exists_encode_of_masked {w : Word} {i : Instr} (h : w &&& i.mask = i.matchWord) :
    ∃ j, encode j = w ∧ j.opcode = i.opcode := by
  have formatF {opc : Byte} (h : w &&& 0xFFFF00FF#32 = commandWord opc 0 0 0) : commandWord opc (field1 w) 0 0 = w := by
    obtain ⟨ho, -, h2, h3⟩ := (masked_eq_iff w 0 0xFF 0xFF opc).1 h
    rw [byte_and_ones] at h2 h3
    exact commandWord_of_formatF ho ((upperHalf_eq_zero w).2 ⟨h2, h3⟩)
  have formatA {opc : Byte} (h : w &&& 0x000000FF#32 = commandWord opc 0 0 0) :
      commandWord opc (field1 w) (field2 w) (field3 w) = w := commandWord_of_formatA ((masked_eq_iff w 0 0 0 opc).1 h).1
  rw [matchWord_eq_commandWord] at h
  cases i with
  | clear => exact ⟨.clear, h.symm.trans BitVec.and_allOnes, rfl⟩
  | gfmac xlen => exact ⟨.gfmac (field1 w), formatF h, rfl⟩
  | pvmac xlen => exact ⟨.pvmac (field1 w), formatF h, rfl⟩
  | pvkey => exact ⟨.pvkey, h.symm.trans BitVec.and_allOnes, rfl⟩
  | cy2enc nlen alen dlen => exact ⟨.cy2enc (field1 w) (field2 w) (field3 w), formatA h, rfl⟩
  | cy2dec nlen alen dlen => exact ⟨.cy2dec (field1 w) (field2 w) (field3 w), formatA h, rfl⟩

/-- The rule of R75: the row's bits are those of its encodings. -/
theorem masked_eq_matchWord_iff (w : Word) (i : Instr) :
    w &&& i.mask = i.matchWord ↔ ∃ j, decode w = .ok j ∧ j.opcode = i.opcode := by
  simp only [decode_eq_ok_iff]
  constructor
  · exact exists_encode_of_masked
  · rintro ⟨j, rfl, hop⟩
    have hj := encode_masked j
    rwa [mask_eq_maskOfOpcode, matchWord_eq_commandWord, hop, ← mask_eq_maskOfOpcode, ← matchWord_eq_commandWord] at hj

/-- Settles O3: the rows exclude each other because a word decodes to one command, and the operands of a word are those of
the command whose encoding it is. -/
theorem commandTableDecides : Obligations.CommandTableDecides := by
  refine ⟨masked_eq_matchWord_iff, fun w i j hi hj => ?_, fun w xlen h => ?_, fun w nlen alen dlen h => ?_, by decide⟩
  · obtain ⟨i', hdi, hi'⟩ := (masked_eq_matchWord_iff w i).1 hi
    obtain ⟨j', hdj, hj'⟩ := (masked_eq_matchWord_iff w j).1 hj
    obtain rfl : i' = j' := Except.ok.inj (hdi.symm.trans hdj)
    exact hi'.symm.trans hj'
  · rcases h with h | h <;> rw [← encode_of_decode h] <;> exact (field1_commandWord _ _ _ _).symm
  · rcases h with h | h <;> rw [← encode_of_decode h] <;>
      exact ⟨(field1_commandWord _ _ _ _).symm, (field2_commandWord _ _ _ _).symm, (field3_commandWord _ _ _ _).symm⟩

/-- Settles O4, by running the decoder on the ten words. -/
theorem sampleWordsDecode : Obligations.SampleWordsDecode := by
  unfold Obligations.SampleWordsDecode
  decide

/-! ### The command words of R79 -/

theorem commandWord_formatF (opc xlen : Byte) :
    commandWord opc xlen 0 0 = opc.setWidth 32 ||| (xlen.setWidth 32 <<< 8) := by
  simp [commandWord]

theorem encode_gfmac (xlen : Byte) : encode (.gfmac xlen) = 0x10#32 ||| (xlen.setWidth 32 <<< 8) :=
  commandWord_formatF 0x10 xlen

theorem encode_pvmac (xlen : Byte) : encode (.pvmac xlen) = 0x11#32 ||| (xlen.setWidth 32 <<< 8) :=
  commandWord_formatF 0x11 xlen

end Sys2Proof

namespace Sys2Proof.Machine

/-! ### Host scripts -/

/-- Settles O6: the lines are those of `expandLine`, and in a word of format F the two fixed fields add no bit. -/
theorem hostScriptLinesAssemble : Obligations.HostScriptLinesAssemble := by
  refine ⟨rfl, fun xlen => ?_, rfl, fun nlen alen dlen => ⟨rfl, rfl⟩, fun w => rfl, fun i v => ⟨rfl, rfl⟩, rfl, rfl,
    fun b xlen => ?_, fun line rest => ⟨rfl, rfl⟩, fun l s => rfl⟩ <;>
  · rw [← encode_gfmac, ← encode_pvmac]
    exact ⟨rfl, rfl⟩

/-! ### `wait` -/

theorem hostMove_wait {s : State} {rest : List HostAction} (hq : s.hostQueue = .wait :: rest) :
    hostMove s = .next { s with
      reads := (1, .word s.status.word) :: s.reads
      hostQueue := if s.status.busy then s.hostQueue else rest } := by
  rw [hostMove_of_cons hq, hq]; rfl

/-- With no schedule imposed, a host whose next action is a write makes it. -/
theorem stepWith_write {E : Cipher} {s : State} {i : RegNum} {v : RegValue} {rest : List HostAction}
    (hs : s.schedule = []) (hq : s.hostQueue = .write i v :: rest) :
    stepWith E s = hostWrite i v { s with hostQueue := rest } := by
  have hg : nextAgent s = .host := nextAgent_host hs (by rw [hostWaits, hq])
  rw [stepWith_of_nextAgent hg, popSchedule_of_nil hs]
  exact hostMove_of_cons hq

/-- While busy, the writes at the head of the queue are dropped one by one (20_memory.md R53). -/
theorem runWith_busy_writes (E : Cipher) {writes : List (RegNum × RegValue)} {rest : List HostAction} {s : State}
    (hs : s.schedule = []) (hb : s.status.busy = true)
    (hwf : ∀ p ∈ writes, (HostAction.write p.1 p.2).wellFormed = true)
    (hq : s.hostQueue = (writes.map fun p => .write p.1 p.2) ++ rest) :
    runWith E writes.length s = .next { s with
      hostQueue := rest
      status := { s.status with ovr := s.status.ovr || !writes.isEmpty } } := by
  induction writes generalizing s with
  | nil =>
    obtain rfl : s.hostQueue = rest := hq
    simp [runWith]
  | cons p writes ih =>
    rw [List.forall_mem_cons] at hwf
    obtain ⟨hi, hv⟩ := (write_wellFormed_iff p.1 p.2).1 hwf.1
    have hstep := (stepWith_write (E := E) hs hq).trans (hostWrite_of_fits _ hi hv)
    rw [regWrite_of_busy (by exact hb)] at hstep
    rw [List.length_cons, runWith_one E _ hstep]
    refine (ih (by exact hs) (by exact hb) hwf.2 rfl).trans ?_
    simp [Status.dropped, dropWrite]

/-- Settles O17: one step of `wait`; then the accept step, and the busy writes after it by induction. -/
theorem waitReadsStatus : Obligations.WaitReadsStatus := by
  refine ⟨fun E s rest hg hq => ?_, fun E s w writes rest hs hb hwf hq => ?_⟩
  · have hstep := (stepWith_of_nextAgent (E := E) hg).trans (hostMove_wait (s := popSchedule s) hq)
    exact ⟨fun hb => by rw [hstep]; simp [hb, popSchedule], fun hb => by rw [hstep]; simp [hb, popSchedule]⟩
  · have hstep := (stepWith_write (E := E) hs hq).trans (hostWrite_word_of_idle (by exact hb) w (by decide))
    rw [Nat.add_comm, runWith_one E _ hstep]
    exact runWith_busy_writes E (s := accept w _) hs rfl hwf rfl

end Sys2Proof.Machine

/-! PROOFS. The field unit family (40_field_unit.md): coefficient integers, the carry-less product, the reduction, the
datapath, the field product, POLYVAL, and the three commands. -/

namespace Sys2Proof.Machine

/-! ### Coefficient integers -/

/-- Bit `i` of `poly(B)` inside its byte (40_field_unit.md R90). -/
theorem poly_testBit_byteAt (B : Block) {i : Nat} (hi : i < 128) :
    (poly B).testBit i = (byteAt B (i / 8)).getLsbD (7 - i % 8) := by
  have hpos : 8 * (15 - i / 8) + (7 - i % 8) = 127 - i := by omega
  rw [poly_testBit B i hi, byteAt_getLsbD, hpos, be128, BitVec.testBit_toNat, decide_eq_true (by omega), Bool.true_and]

/-- Settles O36: both places of a coefficient are one bit of the 128-bit number, and reversing its bits twice changes
nothing. -/
theorem coefficientBits : Obligations.CoefficientBits :=
  ⟨fun B i hi => ⟨poly_testBit_byteAt B hi, poly_testBit B i hi⟩, fun B => ⟨poly_lt B, unpoly_poly B⟩, poly_unpoly⟩

/-- The block of the polynomial `1` (40_field_unit.md R91). -/
theorem poly_one_block : poly 0x80000000000000000000000000000000#128 = 2 ^ 0 := by decide +kernel

/-- The block of the polynomial `x` (40_field_unit.md R91). -/
theorem poly_x_block : poly 0x40000000000000000000000000000000#128 = 2 ^ 1 := by decide +kernel

/-! ### The carry-less product -/

/-- Coefficient `k` of the product, as R92's polynomial product writes it over the first `n` bits of `b`. -/
def productCoeff (a b k n : Nat) : Bool :=
  (List.range n).foldl (fun acc i => acc ^^ (a.testBit (k - i) && b.testBit i)) false

theorem productCoeff_succ (a b k n : Nat) :
    productCoeff a b k (n + 1) = (productCoeff a b k n ^^ (a.testBit (k - n) && b.testBit n)) := by
  simp [productCoeff, List.range_succ]

theorem clmulBits_succ_testBit (a b n k : Nat) : (clmulBits a b (n + 1)).testBit k =
    ((clmulBits a b n).testBit k ^^ (decide (n ≤ k) && a.testBit (k - n) && b.testBit n)) := by
  rw [clmulBits, Nat.testBit_xor]
  cases b.testBit n <;> simp [Nat.testBit_shiftLeft]

theorem clmulBits_testBit (a b : Nat) {n k : Nat} (hn : n ≤ k + 1) :
    (clmulBits a b n).testBit k = productCoeff a b k n := by
  induction n with
  | zero => simp [clmulBits, productCoeff]
  | succ n ih =>
    rw [clmulBits_succ_testBit, productCoeff_succ, ih (by omega), decide_eq_true (by omega), Bool.true_and]

/-- A bit of `b` above `k` adds nothing to coefficient `k`. -/
theorem clmulBits_testBit_stable (a b k j : Nat) :
    (clmulBits a b (k + 1 + j)).testBit k = (clmulBits a b (k + 1)).testBit k := by
  induction j with
  | zero => rfl
  | succ j ih => rw [← Nat.add_assoc, clmulBits_succ_testBit, ih, decide_eq_false (by omega)]; simp

theorem clmul_testBit (a b k : Nat) : (clmul a b).testBit k = productCoeff a b k (k + 1) := by
  have hb : b < 2 ^ (k + 1 + b) := Nat.lt_two_pow_self.trans_le (Nat.pow_le_pow_right (by norm_num) (by omega))
  rw [clmul_eq_bits a b _ hb, clmulBits_testBit_stable, clmulBits_testBit a b le_rfl]

/-- Settles O37: the coefficients by the bits of the second factor; the laws are those of `clmul`. -/
theorem carryLessProductLaws : Obligations.CarryLessProductLaws :=
  ⟨clmul_testBit, fun a b m n _ _ => clmul_lt_two_pow a b m n, fun a => ⟨clmul_zero_right a, clmul_zero_left a⟩,
    clmul_commutes, clmul_associates, fun a b c => ⟨clmul_xor_left a b c, clmul_xor_right a b c⟩,
    by decide +kernel, by decide +kernel⟩

/-! ### The reduction -/

/-- A number below `2^128` that differs from `p` by a multiple of the reduction polynomial is the remainder of `p`. -/
theorem polymod_unique {p r q : Nat} (hr : r < 2 ^ 128) (hq : q < 2 ^ 127)
    (h : p = r ^^^ clmul Config.reductionPoly q) : r = polymod p := by
  rw [h, polymod_xor, polymod_small r hr, polymod, polymodLoop_multiple 127 q hq, Nat.xor_zero]

/-- Settles O38: the loop's own multiple, and the remainder of a multiple is zero. -/
theorem polymodIsRemainder : Obligations.PolymodIsRemainder := fun p hp =>
  ⟨polymod_lt p hp, polymodLoop_remainder 127 p, fun _ _ => polymod_unique⟩

/-- The low bits of a number are what is left without its high bits. -/
theorem mod_two_pow_eq_xor (n k : Nat) : n % 2 ^ k = n ^^^ n >>> k <<< k := by
  apply Nat.eq_of_testBit_eq
  intro i
  rw [Nat.testBit_mod_two_pow, Nat.testBit_xor, Nat.testBit_shiftLeft, Nat.testBit_shiftRight]
  by_cases hi : k ≤ i
  · simp [hi, Nat.not_lt.2 hi]
  · simp [hi, Nat.not_le.1 hi]

theorem low_xor_high (n k : Nat) : n % 2 ^ k ^^^ n >>> k <<< k = n := by
  rw [mod_two_pow_eq_xor, Nat.xor_xor_cancel_right]

/-- The product by `x^7 + x^2 + x + 1`, the shifted exclusive-ors of R94. -/
theorem clmul_tail (q : Nat) : clmul 0x87 q = q ^^^ q <<< 1 ^^^ q <<< 2 ^^^ q <<< 7 := by
  have htail : 0x87 = 2 ^ 0 ^^^ 2 ^ 1 ^^^ 2 ^ 2 ^^^ 2 ^ 7 := by decide
  simp only [htail, clmul_xor_left, clmul_two_pow_left, Nat.shiftLeft_zero]

/-- Modulo the reduction polynomial, `x^128` is `x^7 + x^2 + x + 1` (40_field_unit.md R94). -/
theorem clmul_reductionPoly (q : Nat) : clmul Config.reductionPoly q = q <<< 128 ^^^ clmul 0x87 q := by
  have hP : Config.reductionPoly = 2 ^ 128 ^^^ 0x87 := by decide
  rw [hP, clmul_xor_left, clmul_two_pow_left]

/-- The fold in terms of the tail's products: once for the high half, once for what that overflows. -/
theorem fold_eq_tail_products (p : Nat) :
    fold p = p % 2 ^ 128 ^^^ clmul 0x87 (p >>> 128) % 2 ^ 128 ^^^ clmul 0x87 (clmul 0x87 (p >>> 128) >>> 128) := by
  simp only [fold, clmul_tail, Nat.xor_assoc]

/-- The fold differs from its argument by a multiple of the reduction polynomial: by `Hi` and `G` of R94. -/
theorem eq_fold_xor_multiple (p : Nat) :
    p = fold p ^^^ clmul Config.reductionPoly (p >>> 128 ^^^ clmul 0x87 (p >>> 128) >>> 128) := by
  rw [fold_eq_tail_products, clmul_xor_right, clmul_reductionPoly, clmul_reductionPoly, mod_two_pow_eq_xor,
    mod_two_pow_eq_xor]
  simp only [Nat.xor_assoc, Nat.xor_comm, Nat.xor_left_comm, Nat.xor_self, Nat.xor_zero]

theorem fold_eq_polymod {p : Nat} (hp : p < 2 ^ 255) : fold p = polymod p := by
  have hHi : p >>> 128 < 2 ^ 127 := by rw [Nat.shiftRight_eq_div_pow]; omega
  have hF : clmul 0x87 (p >>> 128) < 2 ^ 134 := clmul_lt_two_pow _ _ 8 127 (by decide) hHi
  have hG : clmul 0x87 (p >>> 128) >>> 128 < 2 ^ 6 := by rw [Nat.shiftRight_eq_div_pow]; omega
  have hGtail := clmul_lt_two_pow 0x87 _ 8 6 (by decide) hG
  refine polymod_unique ?_ (Nat.xor_lt_two_pow hHi (hG.trans (by decide))) (eq_fold_xor_multiple p)
  rw [fold_eq_tail_products]
  exact Nat.xor_lt_two_pow (Nat.xor_lt_two_pow (Nat.mod_lt _ (by decide)) (Nat.mod_lt _ (by decide)))
    (hGtail.trans (by decide))

/-- Settles O39: the remainder is unique. -/
theorem foldComputesRemainder : Obligations.FoldComputesRemainder := fun _ => fold_eq_polymod

/-! ### The datapath -/

/-- One level of three-way Karatsuba, cutting both factors at bit `k`: the middle product less the outer two is the sum of
the cross products (40_field_unit.md R95). -/
theorem clmul_eq_karatsuba (a b k : Nat) :
    clmul a b =
      clmul (a >>> k) (b >>> k) <<< (2 * k) ^^^
      (clmul (a % 2 ^ k ^^^ a >>> k) (b % 2 ^ k ^^^ b >>> k) ^^^ clmul (a % 2 ^ k) (b % 2 ^ k) ^^^
        clmul (a >>> k) (b >>> k)) <<< k ^^^
      clmul (a % 2 ^ k) (b % 2 ^ k) := by
  conv_lhs => rw [← low_xor_high a k, ← low_xor_high b k]
  simp only [clmul_xor_left, clmul_xor_right, clmul_shiftLeft_left, clmul_shiftLeft_right, Nat.shiftLeft_xor_distrib,
    ← Nat.shiftLeft_add, two_mul]
  simp only [Nat.xor_assoc, Nat.xor_comm, Nat.xor_left_comm, Nat.xor_xor_cancel_left, Nat.xor_self, Nat.zero_xor]

theorem kmul64_eq_clmul (u v : Nat) : kmul64 u v = clmul u v := (clmul_eq_karatsuba u v 32).symm

theorem kmul128_eq_clmul (a b : Nat) : kmul128 a b = clmul a b := by
  simp only [kmul128, kmul64_eq_clmul]
  exact (clmul_eq_karatsuba a b 64).symm

/-- Settles O40: one Karatsuba step for each level, and the bound of the product. -/
theorem karatsubaComputesProduct : Obligations.KaratsubaComputesProduct := by
  refine ⟨fun u v hu hv => ?_, fun a b ha hb => ?_⟩
  · rw [kmul64_eq_clmul]
    exact ⟨rfl, clmul_lt_two_pow u v 64 64 hu hv⟩
  · rw [kmul128_eq_clmul]
    exact ⟨rfl, clmul_lt_two_pow a b 128 128 ha hb⟩

theorem clmul_poly_lt (A B : Block) : clmul (poly A) (poly B) < 2 ^ 255 :=
  clmul_lt_two_pow _ _ 128 128 (poly_lt A) (poly_lt B)

theorem gfMulDatapath_eq_gfMul (A B : Block) : gfMulDatapath A B = gfMul A B := by
  rw [gfMulDatapath, kmul128_eq_clmul, fold_eq_polymod (clmul_poly_lt A B), gfMul]

/-- Settles O41: Karatsuba computes the product and the fold its remainder. -/
theorem datapathRefinesProduct : Obligations.DatapathRefinesProduct := gfMulDatapath_eq_gfMul

/-! ### The field product -/

theorem gfMul_commutes (A B : Block) : gfMul A B = gfMul B A := by rw [gfMul, gfMul, clmul_commutes]

theorem gfMul_xor_left (A B C : Block) : gfMul (A ^^^ B) C = gfMul A C ^^^ gfMul B C := by
  apply poly_injective
  rw [poly_xor, poly_gfMul, poly_gfMul, poly_gfMul, poly_xor, clmul_xor_left, polymod_xor]

/-- Reducing an inner product first does not change the outer one. -/
theorem poly_gfMul_gfMul (A B C : Block) :
    poly (gfMul (gfMul A B) C) = polymodLoop 255 (clmul (clmul (poly A) (poly B)) (poly C)) := by
  rw [poly_gfMul, poly_gfMul, polymod_clmul_polymod _ _ (clmul_poly_lt A B) (poly_lt C)]

theorem gfMul_associates (A B C : Block) : gfMul (gfMul A B) C = gfMul A (gfMul B C) := by
  apply poly_injective
  rw [gfMul_commutes A (gfMul B C), poly_gfMul_gfMul, poly_gfMul_gfMul, clmul_associates, clmul_commutes]

theorem gfMul_zero (A : Block) : gfMul A 0#128 = 0#128 := by
  apply poly_injective
  rw [poly_gfMul, poly_zero, clmul_zero_right, polymod_zero]

theorem gfMul_one (A : Block) : gfMul A 0x80000000000000000000000000000000#128 = A := by
  apply poly_injective
  rw [poly_gfMul, poly_one_block, clmul_two_pow, Nat.shiftLeft_zero, polymod_small _ (poly_lt A)]

/-- Settles O42: each law is that of the carry-less product, carried through the remainder. -/
theorem fieldArithmeticLaws : Obligations.FieldArithmeticLaws :=
  ⟨gfMul_commutes, gfMul_associates, gfMul_xor_left, gfMul_zero, gfMul_one⟩

/-! ### Multiplication by `x` -/

theorem poly_gfMul_x (B : Block) : poly (gfMul B 0x40000000000000000000000000000000#128) = polymod (poly B <<< 1) := by
  rw [poly_gfMul, poly_x_block, clmul_two_pow]

/-- The block of `x^7 + x^2 + x + 1`, the constant of R97. -/
theorem poly_tail_block : poly (blk (0xE1 <<< 120)) = 0x87 := by decide +kernel

/-- On the big-endian image of a block the shift of coefficients by one place is a right shift (40_field_unit.md R94). -/
theorem poly_blk_shiftRight (B : Block) : poly (blk (be128 B >>> 1)) = poly B <<< 1 % 2 ^ 128 := by
  have hlt : be128 B >>> 1 < 2 ^ 128 := (Nat.shiftRight_le _ _).trans_lt B.isLt
  apply Nat.eq_of_testBit_eq
  intro i
  rw [Nat.testBit_mod_two_pow, Nat.testBit_shiftLeft]
  by_cases hi : i < 128
  · rw [poly_testBit _ i hi, be128_blk hlt, Nat.testBit_shiftRight]
    obtain rfl | hpos := Nat.eq_zero_or_pos i
    · simpa [be128] using Nat.testBit_lt_two_pow B.isLt
    · rw [poly_testBit B (i - 1) (by omega)]
      simp [hi, show 1 ≤ i from hpos, show 1 + (127 - i) = 127 - (i - 1) by omega]
  · have hbig := Nat.testBit_lt_two_pow ((poly_lt (blk (be128 B >>> 1))).trans_le
      (Nat.pow_le_pow_right (by norm_num) (Nat.not_lt.1 hi)))
    simp [hbig, hi]

theorem blk_xor (v w : Nat) : blk (v ^^^ w) = blk v ^^^ blk w := BitVec.ofNat_xor

/-- The coefficients of `mulx_ghash(B)`: shifted, and the tail added when the coefficient of `x^127` moves out (R97). -/
theorem poly_mulxGhash (B : Block) :
    poly (mulxGhash B) = poly B <<< 1 % 2 ^ 128 ^^^ if (poly B).testBit 127 then 0x87 else 0 := by
  simp only [mulxGhash, poly_testBit B 127 (by decide), Nat.sub_self]
  split
  · rw [blk_xor, poly_xor, poly_blk_shiftRight, poly_tail_block]
  · rw [poly_blk_shiftRight, Nat.xor_zero]

theorem shiftRight_eq_testBit {n k : Nat} (hn : n < 2 ^ (k + 1)) : n >>> k = (n.testBit k).toNat := by
  rw [Nat.toNat_testBit, Nat.shiftRight_eq_div_pow, Nat.mod_eq_of_lt]
  rwa [Nat.div_lt_iff_lt_mul (Nat.two_pow_pos k), ← Nat.pow_succ']

theorem polymod_shiftLeft_one {a : Nat} (ha : a < 2 ^ 128) :
    polymod (a <<< 1) = a <<< 1 % 2 ^ 128 ^^^ if a.testBit 127 then 0x87 else 0 := by
  have hlt : a <<< 1 < 2 ^ 129 := by rw [Nat.shiftLeft_eq]; omega
  have hhigh : (a <<< 1) >>> 128 = (a.testBit 127).toNat := by
    rw [shiftRight_eq_testBit hlt, Nat.testBit_shiftLeft, decide_eq_true (by decide), Bool.true_and]
  rw [← fold_eq_polymod (hlt.trans (by decide)), fold_eq_tail_products, hhigh, Nat.xor_assoc]
  congr 1
  cases a.testBit 127 <;> decide +kernel

theorem mulxGhash_eq_gfMul_x (B : Block) : mulxGhash B = gfMul B 0x40000000000000000000000000000000#128 := by
  apply poly_injective
  rw [poly_mulxGhash, poly_gfMul_x, polymod_shiftLeft_one (poly_lt B)]

/-- Settles O43: shifting the coefficients leaves at most `x^128` to reduce. -/
theorem mulxIsTimesX : Obligations.MulxIsTimesX := mulxGhash_eq_gfMul_x

/-! ### Reversed coefficients

POLYVAL reads a block in the other bit order (40_field_unit.md R105). Reversing the coefficients of a polynomial of degree
below `w` turns products into products and the reduction polynomial into POLYVAL's modulus. -/

/-- The `w` lowest bits of a number in reverse order. -/
def bitReverse (w n : Nat) : Nat := (BitVec.ofNat w n).reverse.toNat

theorem bitReverse_lt (w n : Nat) : bitReverse w n < 2 ^ w := (BitVec.ofNat w n).reverse.isLt

theorem bitReverse_testBit (w n i : Nat) : (bitReverse w n).testBit i = (decide (i < w) && n.testBit (w - 1 - i)) := by
  rw [bitReverse, BitVec.testBit_toNat, BitVec.getLsbD_reverse, BitVec.getMsbD, BitVec.getLsbD_ofNat]
  by_cases hi : i < w
  · simp [hi, show w - 1 - i < w by omega]
  · simp [hi]

theorem bitReverse_xor (w m n : Nat) : bitReverse w (m ^^^ n) = bitReverse w m ^^^ bitReverse w n := by
  apply Nat.eq_of_testBit_eq
  intro i
  simp only [bitReverse_testBit, Nat.testBit_xor]
  cases decide (i < w) <;> simp

@[simp] theorem bitReverse_zero (w : Nat) : bitReverse w 0 = 0 := by simpa using bitReverse_xor w 0 0

/-- A shift by the extra width is undone by the reversal. -/
theorem bitReverse_shiftLeft (w k n : Nat) : bitReverse (w + k) (n <<< k) = bitReverse w n := by
  apply Nat.eq_of_testBit_eq
  intro i
  rw [bitReverse_testBit, bitReverse_testBit, Nat.testBit_shiftLeft]
  by_cases hi : i < w
  · simp [hi, show i < w + k by omega, show k ≤ w + k - 1 - i by omega, show w + k - 1 - i - k = w - 1 - i by omega]
  · have hout : (decide (i < w + k) && decide (k ≤ w + k - 1 - i)) = false := by simp; omega
    rw [← Bool.and_assoc, hout, decide_eq_false hi, Bool.false_and, Bool.false_and]

/-- Extra width moves the reversed bits up. -/
theorem bitReverse_of_wider {w n : Nat} (k : Nat) (hn : n < 2 ^ w) : bitReverse (w + k) n = bitReverse w n <<< k := by
  apply Nat.eq_of_testBit_eq
  intro i
  rw [bitReverse_testBit, Nat.testBit_shiftLeft, bitReverse_testBit]
  by_cases hi : k ≤ i
  · simp [hi, show i < w + k ↔ i - k < w by omega, show w + k - 1 - i = w - 1 - (i - k) by omega]
  · have hbig := Nat.testBit_lt_two_pow (hn.trans_le (Nat.pow_le_pow_right (by norm_num)
      (show w ≤ w + k - 1 - i by omega)))
    simp [hi, hbig]

theorem bitReverse_two_pow {w j : Nat} (hj : j < w) : bitReverse w (2 ^ j) = 2 ^ (w - 1 - j) := by
  apply Nat.eq_of_testBit_eq
  intro i
  rw [bitReverse_testBit, Nat.testBit_two_pow, Nat.testBit_two_pow]
  grind

/-- The reversal of a product is the product of the reversals. -/
theorem bitReverse_clmul {a b m n : Nat} (ha : a < 2 ^ m) (hb : b < 2 ^ n) :
    bitReverse (m + n - 1) (clmul a b) = clmul (bitReverse m a) (bitReverse n b) := by
  refine xor_induction (P := fun b => bitReverse (m + n - 1) (clmul a b) = clmul (bitReverse m a) (bitReverse n b)) n
    ?_ ?_ ?_ b hb
  · simp
  · intro j hj
    have hw : m + n - 1 = m + (n - 1 - j) + j := by omega
    rw [clmul_two_pow, bitReverse_two_pow hj, clmul_two_pow, hw, bitReverse_shiftLeft, bitReverse_of_wider _ ha]
  · intro c d _ _ hc hd
    rw [clmul_xor_right, bitReverse_xor, bitReverse_xor, clmul_xor_right, hc, hd]

theorem bitReverse_poly (B : Block) : bitReverse 128 (poly B) = be128 B := by simp [bitReverse, poly, be128]

theorem bitReverse_reductionPoly : bitReverse 129 Config.reductionPoly = 2 ^ 128 + 2 ^ 127 + 2 ^ 126 + 2 ^ 121 + 1 := by
  decide +kernel

/-! ### POLYVAL -/

/-- The product with a key times `x`, and the multiple of the reduction polynomial it leaves out. -/
theorem clmul_poly_shiftLeft_eq (A K : Block) : ∃ q < 2 ^ 128,
    clmul (poly A) (poly K) <<< 1 = poly (gfMul A (mulxGhash K)) ^^^ clmul Config.reductionPoly q := by
  have hlt : clmul (poly A) (poly K) <<< 1 < 2 ^ (128 + 128) := by
    have := clmul_poly_lt A K
    rw [Nat.shiftLeft_eq]; omega
  have hz : poly (gfMul A (mulxGhash K)) = polymodLoop 128 (clmul (poly A) (poly K) <<< 1) := by
    rw [mulxGhash_eq_gfMul_x, ← gfMul_associates, poly_gfMul_gfMul, poly_x_block, clmul_two_pow]
    exact polymodLoop_stable 128 127 _ hlt
  rw [hz]
  exact polymodLoop_remainder 128 _

/-- A block product in the reversed coefficients. -/
theorem clmul_be128_eq (A K : Block) : ∃ q < 2 ^ 128,
    clmul (be128 A) (be128 K) =
      be128 (gfMul A (mulxGhash K)) <<< 128 ^^^ clmul (2 ^ 128 + 2 ^ 127 + 2 ^ 126 + 2 ^ 121 + 1) q := by
  obtain ⟨q, hq, h⟩ := clmul_poly_shiftLeft_eq A K
  refine ⟨bitReverse 128 q, bitReverse_lt 128 q, ?_⟩
  calc clmul (be128 A) (be128 K)
      = bitReverse 255 (clmul (poly A) (poly K)) := by
        rw [← bitReverse_poly, ← bitReverse_poly, ← bitReverse_clmul (poly_lt A) (poly_lt K)]
    _ = bitReverse 256 (poly (gfMul A (mulxGhash K)) ^^^ clmul Config.reductionPoly q) := by
        rw [← h]
        exact (bitReverse_shiftLeft 255 1 _).symm
    _ = bitReverse (128 + 128) (poly (gfMul A (mulxGhash K))) ^^^
          bitReverse (129 + 128 - 1) (clmul Config.reductionPoly q) := bitReverse_xor _ _ _
    _ = _ := by
        rw [bitReverse_of_wider 128 (poly_lt _), bitReverse_poly, bitReverse_clmul reductionPoly_lt hq,
          bitReverse_reductionPoly]

/-- Settles O44: the byte reversal and the bit order of R90 together read the coefficients in reverse. -/
theorem polyvalNativeDefinition : Obligations.PolyvalNativeDefinition := by
  intro Y H X
  obtain ⟨q, hq, h⟩ := clmul_be128_eq (rev (Y ^^^ X)) (rev H)
  refine ⟨q, hq, h.trans ?_⟩
  simp only [polyvalStep, ghashStep, rev_rev, rev_xor]

/-! ### The commands -/

theorem onDispatch_of_dispatch {s : State} (t : State) (hp : s.phase = .dispatch) : onDispatch s t = .next t := by
  rw [onDispatch, if_pos hp]

theorem exec_gfmac_dispatch {s : State} (xlen : Byte) (hp : s.phase = .dispatch) :
    exec (.gfmac xlen) s = .next (absorb ghashStep xlen s) := onDispatch_of_dispatch _ hp

theorem exec_pvmac_dispatch {s : State} (xlen : Byte) (hp : s.phase = .dispatch) :
    exec (.pvmac xlen) s = .next (absorb polyvalStep xlen s) := onDispatch_of_dispatch _ hp

theorem ghashStep_eq_datapath (Y H X : Block) :
    ghashStep Y H X = unpoly (fold (kmul128 (poly (Y ^^^ X)) (poly H))) := (gfMulDatapath_eq_gfMul (Y ^^^ X) H).symm

/-- What absorbing does, by the length (40_field_unit.md R100). -/
theorem absorb_eq (step : Block → Block → Block → Block) (xlen : Byte) (s : State) :
    absorb step xlen s =
      if 16 < xlen.toNat then complete .lengthError s
      else if xlen.toNat = 0 then complete .ok s
      else { complete .ok s with y := step s.y s.h (pad0 s.x xlen.toNat) } := by
  rcases absorb_cases step xlen s with ⟨hlong, e⟩ | ⟨hzero, e⟩ | ⟨hpos, hle, e⟩
  · rw [if_pos hlong, e]
  · rw [if_neg (by omega), if_pos hzero, e]
  · rw [if_neg (by omega), if_neg (by omega), e]
    rfl

/-- Settles O22: the three outcomes of absorbing, with the datapath's product in the third. -/
theorem gfmacCompletes : Obligations.GfmacCompletes := by
  intro s xlen hp
  rw [exec_gfmac_dispatch xlen hp, absorb_eq, ghashStep_eq_datapath, apply_ite Host.Outcome.next,
    apply_ite Host.Outcome.next, pad0]

/-- GFMAC on a full block (40_field_unit.md R101). -/
theorem exec_gfmac_full {s : State} (hp : s.phase = .dispatch) :
    exec (.gfmac 16) s = .next { complete .ok s with y := ghashStep s.y s.h s.x } := by
  have hlen : (16 : Byte).toNat = 16 := rfl
  rw [exec_gfmac_dispatch 16 hp, absorb_eq, hlen, if_neg (by decide), if_neg (by decide), pad0_full]

/-- Settles O23: the padded block is a full block, so GFMAC 16 absorbs its reversal whole. -/
theorem pvmacCompletes : Obligations.PvmacCompletes := by
  intro s xlen hp
  rw [exec_pvmac_dispatch xlen hp, absorb_eq]
  refine ⟨fun hlong => by rw [if_pos hlong], fun hzero => by rw [if_neg (by omega), if_pos hzero], fun hpos hle => ?_⟩
  refine ⟨_, exec_gfmac_full hp, ?_⟩
  rw [if_neg (by omega), if_neg (by omega), polyvalStep]
  rfl

/-- Settles O24: `mulx_ghash` is the product with `x`. -/
theorem pvkeyCompletes : Obligations.PvkeyCompletes := by
  intro s hp
  rw [← mulxGhash_eq_gfMul_x]
  exact onDispatch_of_dispatch _ hp

end Sys2Proof.Machine

/-! PROOFS. The AEAD engine family (41_cymric_engine.md): the domain-separated blocks, the tag padding, the comparator, the
construction on byte strings, and the run of a Cymric2 command. -/

namespace Sys2Proof.Machine

/-! ### The domain-separated blocks -/

/-- Byte `i` of the zeros, the nonce and the associated data of a domain-separated block, for `i < 15`
(41_cymric_engine.md R122). -/
def domainBody (N A : Block) (nlen alen i : Nat) : Byte :=
  if i < 15 - nlen - alen then 0
  else if i < 15 - alen then byteAt N (i - (15 - nlen - alen)) else byteAt A (i - (15 - alen))

theorem byteAt_domainBlock_body (N A : Block) {nlen alen : Nat} (d : Byte) (h : nlen + alen ≤ 15) {i : Nat} (hi : i < 16) :
    byteAt (domainBlock .left (bytes N 0 nlen) (bytes A 0 alen) d) i =
      if i < 15 then domainBody N A nlen alen i else d := by
  rw [byteAt_domainBlock N A nlen alen d h i hi, domainBody]
  by_cases h15 : i < 15
  · simp only [h15, if_true]
  · rw [if_neg (by omega), if_neg (by omega), if_neg h15, if_neg h15]

theorem byteAt_p0 (N A : Block) {nlen alen : Nat} (dlen : Nat) (h : nlen + alen ≤ 15) {i : Nat} (hi : i < 16) :
    byteAt (p0 N A nlen alen dlen) i =
      if i < 15 then domainBody N A nlen alen i else if dlen = 16 then 0xA0#8 else 0x20#8 :=
  domainByte0_cases dlen ▸ byteAt_domainBlock_body N A _ h hi

theorem byteAt_p1 (N A : Block) {nlen alen : Nat} (dlen : Nat) (h : nlen + alen ≤ 15) {i : Nat} (hi : i < 16) :
    byteAt (p1 N A nlen alen dlen) i =
      if i < 15 then domainBody N A nlen alen i else if dlen = 16 then 0xE0#8 else 0x60#8 :=
  domainByte1_cases dlen ▸ byteAt_domainBlock_body N A _ h hi

theorem byteAt_bit6_of_last : ∀ i < 16, byteAt 0x40#128 i = if i < 15 then 0#8 else 0x40#8 := by decide

/-- The two blocks of a command differ in bit 6 of the last byte only (41_cymric_engine.md R122). -/
theorem p0_xor_p1 (N A : Block) {nlen alen : Nat} (dlen : Nat) (h : nlen + alen ≤ 15) :
    p0 N A nlen alen dlen ^^^ p1 N A nlen alen dlen = 0x40#128 := by
  apply block_ext
  intro i hi
  rw [byteAt_xor, byteAt_p0 N A dlen h hi, byteAt_p1 N A dlen h hi, byteAt_bit6_of_last i hi]
  by_cases h15 : i < 15
  · simp only [h15, if_true, BitVec.xor_self]
  · by_cases hd : dlen = 16 <;> simp [h15, hd]

/-- Settles O45, byte by byte. -/
theorem domainBlockBytes : Obligations.DomainBlockBytes := by
  intro N A nlen alen dlen h _
  exact ⟨fun i hi => ⟨byteAt_p0 N A dlen h hi, byteAt_p1 N A dlen h hi⟩, p0_xor_p1 N A dlen h⟩

/-- Settles O46: the four domain bytes are different. -/
theorem domainSeparation : Obligations.DomainSeparation := by
  intro N A nlen alen dlen h hd
  refine List.Pairwise.of_map (S := (· ≠ ·)) (fun B => byteAt B 15) (fun _ _ => mt (congrArg fun B => byteAt B 15)) ?_
  have h15 : 15 < 16 := by decide
  simp only [List.map_cons, List.map_nil, byteAt_p0 N A _ h h15, byteAt_p1 N A _ h h15, hd.ne, lt_irrefl, if_true, if_false]
  decide

/-- With the zero bytes on the left only the concatenation of nonce and associated data is read. -/
theorem domainBlock_left (n a : List Byte) (d : Byte) :
    domainBlock .left n a d = blockOf (zeros (15 - (n ++ a).length) ++ (n ++ a) ++ [d]) := by
  simp only [domainBlock, List.length_append, Nat.sub_sub, List.append_assoc]

/-- Zero bytes before the nonce are those the padding would have put there (41_cymric_engine.md R123). -/
theorem domainBlock_left_of_leading_zeros {n a n' a' : List Byte} {k : Nat} (d : Byte)
    (hcat : n' ++ a' = List.replicate k 0 ++ (n ++ a)) (hlen : n'.length + a'.length ≤ 15) :
    domainBlock .left n' a' d = domainBlock .left n a d := by
  have hk : n'.length + a'.length = k + (n ++ a).length := by
    rw [← List.length_append, hcat, List.length_append, List.length_replicate]
  have hfill : zeros (15 - (n' ++ a').length) ++ (n' ++ a') = zeros (15 - (n ++ a).length) ++ (n ++ a) := by
    rw [List.length_append, hk, hcat, ← List.append_assoc, zeros, List.replicate_append_replicate, zeros]
    congr 2
    omega
  rw [domainBlock_left, domainBlock_left, hfill]

/-- Settles O47: leading zero bytes do not matter, and the domain bytes ask only whether the length is 16. -/
theorem domainBlocksForgetTheSplit : Obligations.DomainBlocksForgetTheSplit := by
  intro n a n' a' k dlen dlen' hcat hlen hfull
  have h0 : domainByte0 dlen' = domainByte0 dlen := by simp only [domainByte0, hfull]
  have h1 : domainByte1 dlen' = domainByte1 dlen := by rw [domainByte1, h0, domainByte1]
  rw [p0Of, p1Of, h0, h1]
  exact ⟨domainBlock_left_of_leading_zeros _ hcat hlen, domainBlock_left_of_leading_zeros _ hcat hlen⟩

/-! ### The tag padding and the comparator -/

/-- `pad10` keeps the message bytes (41_cymric_engine.md R126). -/
theorem byteAt_pad10_of_lt (M : Block) {n i : Nat} (hn : n ≤ 16) (hi : i < n) : byteAt (pad10 M n) i = byteAt M i := by
  rcases hn.lt_or_eq with hlt | rfl
  · rw [byteAt_pad10 M n i hlt (hi.trans hlt), if_pos hi]
  · rw [pad10_full]

/-- The `0x80` after the longer message stands where the shorter one has zeros (41_cymric_engine.md R126). -/
theorem pad10_ne_of_length_lt (M M' : Block) {n n' : Nat} (hlt : n < n') (hn' : n' < 16) : pad10 M n ≠ pad10 M' n' := by
  intro h
  have hbyte := congrArg (fun B => byteAt B n') h
  simp only [byteAt_pad10 M n n' (hlt.trans hn') hn', byteAt_pad10 M' n' n' hn' hn', hlt.not_gt, hlt.ne', lt_irrefl,
    if_true, if_false] at hbyte
  exact absurd hbyte (by decide)

/-- Settles O48: the message bytes stay as they are, and the `0x80` gives the length away. -/
theorem padTenBytes : Obligations.PadTenBytes := by
  refine ⟨byteAt_pad10, pad10_full, fun M M' n hn h i hi => ?_, fun M M' n n' => pad10_ne_of_length_lt M M'⟩
  rw [← byteAt_pad10_of_lt M hn hi, h, byteAt_pad10_of_lt M' hn hi]

/-- Settles O49: the fold over the sixteen places, written out, and the law of the comparator. -/
theorem comparatorIsExact : Obligations.ComparatorIsExact := by
  refine fun U V => ⟨?_, (ctDiff_eq_zero U V).symm⟩
  simp only [ctDiff, List.range_succ, List.range_zero, List.nil_append, List.cons_append, List.foldl_cons, List.foldl_nil,
    BitVec.zero_or, BitVec.ofNat_eq_ofNat]

/-! ### The construction on byte strings -/

theorem bytes_congr {A B : Block} {n : Nat} (h : ∀ i < n, byteAt A i = byteAt B i) : bytes A 0 n = bytes B 0 n := by
  apply List.ext_getElem (by simp)
  intro i hi _
  simpa using h i (by simpa using hi)

/-- A byte string under a mask: the ciphertext of a message, and the message of a ciphertext (41_cymric_engine.md R125). -/
def xorBody (S : Block) (m : List Byte) : List Byte := bytes (pad0String m ^^^ S) 0 m.length

@[simp] theorem xorBody_length (S : Block) (m : List Byte) : (xorBody S m).length = m.length := bytes_length _ _ _

/-- The same mask takes itself away again. -/
theorem xorBody_xorBody (S : Block) {m : List Byte} (hm : m.length ≤ 16) : xorBody S (xorBody S m) = m := by
  have hbytes : ∀ i < m.length, byteAt (pad0String (xorBody S m) ^^^ S) i = byteAt (pad0String m) i := by
    intro i hi
    rw [xorBody, pad0String_bytes, byteAt_xor, byteAt_pad0 _ _ _ hm (hi.trans_le hm), if_pos hi, byteAt_xor,
      BitVec.xor_assoc, BitVec.xor_self, BitVec.xor_zero]
  rw [xorBody, xorBody_length, bytes_congr hbytes, bytes_pad0String m hm]

/-- The mask of the body, from the dual cipher call (41_cymric_engine.md R124, R125). -/
def bodyMask (E : Cipher) (n a : List Byte) (dlen : Nat) : Block :=
  E .slot0 (p0Of n a dlen) ^^^ E .slot0 (p1Of n a dlen)

/-- The tag of a message (41_cymric_engine.md R126, R127). -/
def tagOf (E : Cipher) (n a m : List Byte) : Block := E .slot1 (E .slot0 (p0Of n a m.length) ^^^ pad10String m)

theorem cy2Encrypt_eq (E : Cipher) (n a m : List Byte) :
    cy2Encrypt E n a m =
      if 16 < m.length ∨ 15 < n.length + a.length then .lengthError
      else .ok (xorBody (bodyMask E n a m.length) m, tagOf E n a m) := by
  simp only [cy2Encrypt, xorBody, bodyMask, tagOf, BitVec.xor_assoc]

theorem cy2Decrypt_eq (E : Cipher) (n a body : List Byte) (tag : Block) :
    cy2Decrypt E n a body tag =
      if 16 < body.length ∨ 15 < n.length + a.length then .lengthError
      else if tagOf E n a (xorBody (bodyMask E n a body.length) body) = tag then
        .ok (xorBody (bodyMask E n a body.length) body)
      else .authFailure := by
  simp only [cy2Decrypt, xorBody, bodyMask, tagOf, BitVec.xor_assoc, ctDiff_eq_zero, bytes_length]

theorem cy2Encrypt_eq_ok {E : Cipher} {n a m C : List Byte} {G : Block} (h : cy2Encrypt E n a m = .ok (C, G)) :
    m.length ≤ 16 ∧ n.length + a.length ≤ 15 ∧ C = xorBody (bodyMask E n a m.length) m ∧ G = tagOf E n a m := by
  rw [cy2Encrypt_eq] at h
  split at h
  · cases h
  · cases h
    exact ⟨by omega, by omega, rfl, rfl⟩

/-- A body of the length of an encrypted message is opened when its tag is the one given. -/
theorem cy2Decrypt_of_lengths (E : Cipher) {n a m body : List Byte} (tag : Block) (hm : m.length ≤ 16)
    (hna : n.length + a.length ≤ 15) (hbody : body.length = m.length) :
    cy2Decrypt E n a body tag =
      if tagOf E n a (xorBody (bodyMask E n a m.length) body) = tag then .ok (xorBody (bodyMask E n a m.length) body)
      else .authFailure := by
  rw [cy2Decrypt_eq, hbody, if_neg (by omega)]

/-- Settles O50: the mask and the tag of decryption are those of encryption. -/
theorem decryptAfterEncrypt : Obligations.DecryptAfterEncrypt := by
  intro E n a m C G henc
  obtain ⟨hm, hna, rfl, rfl⟩ := cy2Encrypt_eq_ok henc
  refine ⟨xorBody_length _ m, ?_⟩
  rw [cy2Decrypt_of_lengths E _ hm hna (xorBody_length _ m), xorBody_xorBody _ hm, if_pos rfl]

/-- The padding of the tag pre-image keeps the message (41_cymric_engine.md R126). -/
theorem bytes_pad10String {m : List Byte} (hm : m.length ≤ 16) : bytes (pad10String m) 0 m.length = m := by
  have hpad : pad10String m = pad10 (pad0String m) m.length := by
    rw [← pad10String_bytes _ _ hm, bytes_pad0String m hm]
  rw [hpad, bytes_congr fun i => byteAt_pad10_of_lt _ hm, bytes_pad0String m hm]

/-- Under an injective slot 1 two messages of one length have different tags. -/
theorem tagOf_injective {E : Cipher} (hE : Function.Injective (E .slot1)) {n a m m' : List Byte} (hm : m.length ≤ 16)
    (hlen : m'.length = m.length) (htag : tagOf E n a m' = tagOf E n a m) : m' = m := by
  rw [tagOf, tagOf, hlen] at htag
  have hpad : pad10String m' = pad10String m := (BitVec.xor_right_inj _).1 (hE htag)
  rw [← bytes_pad10String (hlen.trans_le hm), hpad, hlen, bytes_pad10String hm]

/-- Settles O51: a changed body decrypts to another message, and its tag is another one. -/
theorem tamperingIsDetected : Obligations.TamperingIsDetected := by
  intro E n a m C G henc
  obtain ⟨hm, hna, rfl, rfl⟩ := cy2Encrypt_eq_ok henc
  refine ⟨fun G' hG => ?_, fun hE C' hlen hC => ?_⟩
  · rw [cy2Decrypt_of_lengths E _ hm hna (xorBody_length _ m), xorBody_xorBody _ hm, if_neg hG.symm]
  · rw [xorBody_length] at hlen
    rw [cy2Decrypt_of_lengths E _ hm hna hlen, if_neg]
    intro htag
    have hmsg := tagOf_injective hE hm ((xorBody_length _ C').trans hlen) htag
    refine hC ?_
    rw [← xorBody_xorBody (bodyMask E n a m.length) (hlen.trans_le hm), hmsg]

/-! ### The moves of a Cymric2 command -/

/-- The moves `gs` come next: the schedule names them, or it is empty and the host waits. -/
def MovesNext (gs : List Agent) (s : State) : Prop :=
  (s.schedule = [] ∧ hostWaits s = true) ∨ ∃ later, s.schedule = gs ++ later

theorem MovesNext.tail {g : Agent} {gs : List Agent} {s t : State} (hnext : MovesNext (g :: gs) s)
    (hqueue : t.hostQueue = s.hostQueue) (hsched : t.schedule = s.schedule.tail) : MovesNext gs t := by
  rcases hnext with ⟨hs, hw⟩ | ⟨later, hs⟩
  · exact .inl ⟨by rw [hsched, hs, List.tail_nil], by rw [← hw, hostWaits, hqueue, hostWaits]⟩
  · exact .inr ⟨later, by rw [hsched, hs, List.cons_append, List.tail_cons]⟩

theorem MovesNext.nextAgent_sequencer {gs : List Agent} {s : State} (hnext : MovesNext (.sequencer :: gs) s)
    (he : sequencerEnabled s = true) : nextAgent s = .sequencer := by
  rcases hnext with ⟨hs, hw⟩ | ⟨later, hs⟩
  · simp [nextAgent, hs, defaultAgent, hw, he]
  · simp [nextAgent, hs]

theorem MovesNext.nextAgent_collaborator {gs : List Agent} {s : State} (hnext : MovesNext (.collaborator :: gs) s)
    (he : sequencerEnabled s = false) (hreq : s.creq.valid = true) : nextAgent s = .collaborator := by
  rcases hnext with ⟨hs, hw⟩ | ⟨later, hs⟩
  · simp [nextAgent, hs, defaultAgent, hw, he, hreq]
  · simp [nextAgent, hs]

/-- The state with the answer to its request delivered (10_state.md R39). -/
def answered (E : Cipher) (s : State) : State :=
  { s with
    creq := ⟨false, s.creq.ksel, s.creq.in0, s.creq.in1⟩
    crsp := ⟨true, E s.creq.ksel s.creq.in0, E s.creq.ksel s.creq.in1⟩ }

/-- A cipher call: the sequencer makes the request and waits, and the collaborator answers it. -/
theorem runWith_cipher_call (E : Cipher) (k : Nat) {i : Instr} {gs : List Agent} {s t : State}
    (hnext : MovesNext (.sequencer :: .collaborator :: gs) s) (hon : sequencerEnabled s = true)
    (hdec : decode s.cmd = .ok i) (hexec : exec i (popSchedule s) = .next t) (hoff : sequencerEnabled t = false)
    (hreq : t.creq.valid = true) (hbusy : t.phase ≠ .idle) :
    MovesNext gs (answered E (popSchedule t)) ∧
      runWith E (k + 2) s = runWith E k (answered E (popSchedule t)) := by
  obtain ⟨⟨hqueue, hsched, -⟩, -⟩ := (exec_effect hexec).frame
  have hnext' : MovesNext (.collaborator :: gs) t := hnext.tail hqueue hsched
  have hrequest := (stepWith_of_decode (E := E) (hnext.nextAgent_sequencer hon) hdec).trans hexec
  have hanswer := stepWith_of_nextAgent (E := E) (hnext'.nextAgent_collaborator hoff hreq)
  have hmove : collaboratorMove E (popSchedule t) = answered E (popSchedule t) :=
    (collaboratorAnswers E (popSchedule t) hreq).1 hbusy
  refine ⟨hnext'.tail rfl rfl, ?_⟩
  rw [runWith_one E _ hrequest, runWith_one E k hanswer, hmove]

/-- The state after the first two moves of a Cymric2 command, with the answer to the dual-block request. -/
def firstAnswered (E : Cipher) (nlen alen dlen : Byte) (s : State) : State :=
  answered E (popSchedule { popSchedule s with
    creq := ⟨true, .slot0, blockP0 s nlen alen dlen, blockP1 s nlen alen dlen⟩
    phase := .aeWait1 })

/-- The state after two more moves, with the answer to the tag request; `M` is the message. -/
def tagAnswered (E : Cipher) (M : Block) (dlen : Nat) (s : State) : State :=
  answered E (popSchedule (aeadWait1 M dlen (popSchedule s)))

section
variable (E : Cipher) (nlen alen dlen : Byte) (M : Block) (d : Nat) (s : State)

@[simp] theorem firstAnswered_cmd : (firstAnswered E nlen alen dlen s).cmd = s.cmd := rfl
@[simp] theorem firstAnswered_din : (firstAnswered E nlen alen dlen s).din = s.din := rfl
@[simp] theorem firstAnswered_tagin : (firstAnswered E nlen alen dlen s).tagin = s.tagin := rfl
@[simp] theorem firstAnswered_crsp : (firstAnswered E nlen alen dlen s).crsp =
    ⟨true, E .slot0 (blockP0 s nlen alen dlen), E .slot0 (blockP1 s nlen alen dlen)⟩ := rfl

@[simp] theorem tagAnswered_cmd : (tagAnswered E M d s).cmd = s.cmd := rfl
@[simp] theorem tagAnswered_tagin : (tagAnswered E M d s).tagin = s.tagin := rfl
@[simp] theorem tagAnswered_tY0 : (tagAnswered E M d s).tY0 = s.crsp.out0 := rfl
@[simp] theorem tagAnswered_tY1 : (tagAnswered E M d s).tY1 = s.crsp.out1 := rfl
@[simp] theorem tagAnswered_tM : (tagAnswered E M d s).tM = M := rfl
@[simp] theorem tagAnswered_crsp : (tagAnswered E M d s).crsp =
    ⟨true, E .slot1 (tagPreimage s.crsp.out0 M d), E .slot1 (tagPreimage s.crsp.out0 M d)⟩ := rfl

/-- What the two calls left in the hidden state is cleared by completion. -/
theorem complete_tagAnswered (rc : ResultCode) :
    complete rc (popSchedule (tagAnswered E M d (firstAnswered E nlen alen dlen s))) =
      { complete rc s with schedule := s.schedule.drop 5 } := by
  have hdrop : s.schedule.drop 5 = s.schedule.tail.tail.tail.tail.tail := by simp only [← List.drop_one, List.drop_drop]
  rw [hdrop]
  cases s
  rfl

end

section
variable (E : Cipher) (k : Nat) {i : Instr} {gs : List Agent} {nlen alen dlen : Byte} {M : Block} {d : Nat} {s : State}

/-- The call on `P0` and `P1` (41_cymric_engine.md R124). -/
theorem runWith_first_call (hi : i = .cy2enc nlen alen dlen ∨ i = .cy2dec nlen alen dlen) (hp : s.phase = .dispatch)
    (hno : s.crsp.valid = false) (hnext : MovesNext (.sequencer :: .collaborator :: gs) s)
    (hdec : decode s.cmd = .ok i) (hd : dlen.toNat ≤ 16) (hna : nlen.toNat + alen.toNat ≤ 15) :
    MovesNext gs (firstAnswered E nlen alen dlen s) ∧
      runWith E (k + 2) s = runWith E k (firstAnswered E nlen alen dlen s) :=
  runWith_cipher_call E k hnext (by simp [sequencerEnabled, hp]) hdec
    ((cymric2DispatchStep (popSchedule s) nlen alen dlen i hi hp).2 hd hna) hno rfl (by simp)

/-- The call on the tag pre-image (41_cymric_engine.md R127). -/
theorem runWith_tag_call (hwait : exec i (popSchedule s) = .next (aeadWait1 M d (popSchedule s)))
    (hp : s.phase = .aeWait1) (hv : s.crsp.valid = true)
    (hnext : MovesNext (.sequencer :: .collaborator :: gs) s) (hdec : decode s.cmd = .ok i) :
    MovesNext gs (tagAnswered E M d s) ∧ runWith E (k + 2) s = runWith E k (tagAnswered E M d s) :=
  runWith_cipher_call E k hnext (by simp [sequencerEnabled, hp, hv]) hdec hwait rfl rfl (by simp)

theorem runWith_last_move (hnext : MovesNext (.sequencer :: gs) s) (hon : sequencerEnabled s = true)
    (hdec : decode s.cmd = .ok i) : runWith E 1 s = exec i (popSchedule s) :=
  (runWith_single E s).trans (stepWith_of_decode (hnext.nextAgent_sequencer hon) hdec)

/-- The first four moves of a Cymric2 command are its two cipher calls. -/
theorem runWith_two_calls (hi : i = .cy2enc nlen alen dlen ∨ i = .cy2dec nlen alen dlen)
    (hwait : exec i (popSchedule (firstAnswered E nlen alen dlen s)) =
      .next (aeadWait1 M dlen.toNat (popSchedule (firstAnswered E nlen alen dlen s))))
    (hp : s.phase = .dispatch) (hclear : HiddenClear s) (hnext : CommandMovesNext s) (hdec : decode s.cmd = .ok i)
    (hd : dlen.toNat ≤ 16) (hna : nlen.toNat + alen.toNat ≤ 15) :
    runWith E 5 s = exec i (popSchedule (tagAnswered E M dlen.toNat (firstAnswered E nlen alen dlen s))) := by
  have hno : s.crsp.valid = false := congrArg CipherAnswer.valid hclear.crsp
  obtain ⟨hnext1, hrun1⟩ := runWith_first_call E 3 hi hp hno hnext hdec hd hna
  obtain ⟨hnext2, hrun2⟩ := runWith_tag_call E 1 hwait rfl rfl hnext1 hdec
  rw [hrun1, hrun2, runWith_last_move E hnext2 rfl (by simpa using hdec)]

end

/-- Settles O52: the last step reads what the two cipher calls left. -/
theorem encryptionRunComputesConstruction : Obligations.EncryptionRunComputesConstruction := by
  intro E s nlen alen dlen hp hclear hnext hdec hd hna
  have hwait := exec_cy2enc_aeWait1 (s := popSchedule (firstAnswered E nlen alen dlen s)) nlen alen dlen rfl rfl
  have hrun := runWith_two_calls E (.inl rfl) hwait hp hclear hnext hdec hd hna
  rw [(cymric2FinishStep _ nlen alen dlen rfl rfl).1, complete_tagAnswered] at hrun
  refine ⟨_, _, cy2Encrypt_registers E s.n s.a s.din hd hna, hrun.trans ?_⟩
  simp [messageOfEncryption, blockP0, blockP1, pad0String_bytes]

/-- Settles O53: the comparison decides as `cy2_decrypt` does, and `T_M` holds its message. -/
theorem decryptionRunComputesConstruction : Obligations.DecryptionRunComputesConstruction := by
  intro E s nlen alen dlen hp hclear hnext hdec hd hna
  have hwait := exec_cy2dec_aeWait1 (s := popSchedule (firstAnswered E nlen alen dlen s)) nlen alen dlen rfl rfl
  have hrun := runWith_two_calls E (.inr rfl) hwait hp hclear hnext hdec hd hna
  obtain ⟨-, hequal, hunequal⟩ := cymric2FinishStep (popSchedule (tagAnswered E _ dlen.toNat
    (firstAnswered E nlen alen dlen s))) nlen alen dlen rfl rfl
  rw [complete_tagAnswered] at hequal hunequal
  simp only [messageOfDecryption, popSchedule_din, popSchedule_crsp, popSchedule_tagin, popSchedule_tM, firstAnswered_din,
    firstAnswered_crsp, firstAnswered_tagin, tagAnswered_tagin, tagAnswered_tM, tagAnswered_crsp, blockP0, blockP1]
    at hequal hunequal hrun
  rw [cy2Decrypt_registers E s.n s.a s.din s.tagin hd hna]
  split
  next htag => exact .inl ⟨_, rfl, by rw [hrun, hequal htag, pad0String_bytes, cipherBody]⟩
  next htag => exact .inr ⟨rfl, hrun.trans (hunequal htag)⟩

/-! ### A failed decryption -/

theorem Status.word_bit_two (st : Status) : st.word.getLsbD 2 = st.ovr := by
  obtain ⟨-, -, hovr, -⟩ := statusWordLayout st
  exact hovr

/-- The word a host reads from STATUS after completion depends on the flags only through `OVR`, which it could read before. -/
theorem Status.completed_word_congr {st st' : Status} (rc : ResultCode) (h : st.word = st'.word) :
    (st.completed rc).word = (st'.completed rc).word := by
  have hovr : st.ovr = st'.ovr := by
    rw [← st.word_bit_two, h, st'.word_bit_two]
  have hst : st.completed rc = st'.completed rc := by
    simp only [Status.completed, hovr]
  rw [hst]

/-- What the host sees after a failed decryption, from what it saw before. -/
theorem hostView_authFailure (s : State) :
    hostView (complete .authFailure { s with dout := 0 }) =
      { hostView s with status := (s.status.completed .authFailure).word, dout := 0 } := rfl

/-- The step of a failed decryption (41_cymric_engine.md R131). -/
theorem exec_cy2dec_mismatch {s : State} (nlen alen dlen : Byte) (hp : s.phase = .aeWait2) (hv : s.crsp.valid = true)
    (htag : s.crsp.out0 ≠ s.tagin) :
    exec (.cy2dec nlen alen dlen) s = .next (complete .authFailure { s with dout := 0 }) := by
  rw [exec_cy2dec_aeWait2 nlen alen dlen hp hv, decryptFinish_of_unequal (mt (ctDiff_eq_zero _ _).1 htag)]

/-- Settles O59: the view after the failure is made of the view before it. -/
theorem failedDecryptionRevealsNothing : Obligations.FailedDecryptionRevealsNothing := by
  intro s s' t t' nlen alen dlen hview hp hp' hv hv' htag htag' hstep hstep'
  rw [exec_cy2dec_mismatch nlen alen dlen hp hv htag] at hstep
  rw [exec_cy2dec_mismatch nlen alen dlen hp' hv' htag'] at hstep'
  cases hstep
  cases hstep'
  refine ⟨?_, rfl, rfl⟩
  rw [hostView_authFailure, hostView_authFailure, hview,
    Status.completed_word_congr _ (congrArg HostView.status hview)]

end Sys2Proof.Machine

/-! PROOFS. The housekeeping family (42_housekeeping.md): CLEAR. -/

namespace Sys2Proof.Machine

/-- CLEAR's DISPATCH step is the wipe followed by a success (42_housekeeping.md R150). -/
theorem exec_clear_dispatch {s : State} (hp : s.phase = .dispatch) :
    exec .clear s = .next (complete .ok (clearData s)) := onDispatch_of_dispatch _ hp

/-- Settles O21: the fields that the wipe and the completion write are disjoint, and each is a literal or kept. -/
theorem clearCompletes : Obligations.ClearCompletes := by
  intro s hp
  rw [exec_clear_dispatch hp]
  rfl

end Sys2Proof.Machine

/-! PROOFS. The exceptions family (60_exceptions.md): which words are illegal, completion and its result codes, the
interrupt line, and where the machine can stop. -/

namespace Sys2Proof

/-! ### Illegal words -/

/-- The legal words (30_encoding.md R71, R76): a row's opcode, and zero in its format's must-be-zero bits. -/
theorem exists_decode_ok_iff (w : Word) : (∃ i, decode w = .ok i) ↔
    (opcodeField w ∈ [0x01#8, 0x12#8] ∧ w.extractLsb' 8 24 = 0#24) ∨
    (opcodeField w ∈ [0x10#8, 0x11#8] ∧ w.extractLsb' 16 16 = 0#16) ∨ opcodeField w ∈ [0x20#8, 0x21#8] := by
  simp only [List.mem_cons, List.not_mem_nil, or_false]
  constructor
  · rintro ⟨i, hi⟩
    rcases decode_ok_cases hi with ⟨-, ho, hz⟩ | ⟨-, ho, hz⟩ | ⟨-, ho, hz⟩ | ⟨-, ho, hz⟩ | ⟨-, ho⟩ | ⟨-, ho⟩
    · exact .inl ⟨.inl ho, hz⟩
    · exact .inr (.inl ⟨.inl ho, hz⟩)
    · exact .inr (.inl ⟨.inr ho, hz⟩)
    · exact .inl ⟨.inr ho, hz⟩
    · exact .inr (.inr (.inl ho))
    · exact .inr (.inr (.inr ho))
  · simp only [decode_eq_ok_iff]
    rintro (⟨ho | ho, hz⟩ | ⟨ho | ho, hz⟩ | ho | ho)
    · exact ⟨.clear, commandWord_of_formatZ ho hz⟩
    · exact ⟨.pvkey, commandWord_of_formatZ ho hz⟩
    · exact ⟨.gfmac (field1 w), commandWord_of_formatF ho hz⟩
    · exact ⟨.pvmac (field1 w), commandWord_of_formatF ho hz⟩
    · exact ⟨.cy2enc (field1 w) (field2 w) (field3 w), commandWord_of_formatA ho⟩
    · exact ⟨.cy2dec (field1 w) (field2 w) (field3 w), commandWord_of_formatA ho⟩

theorem exists_decode_error_iff (w : Word) : (∃ e, decode w = .error e) ↔ ¬ ∃ i, decode w = .ok i := by
  cases decode w <;> simp

end Sys2Proof

namespace Sys2Proof.Machine

theorem sameRegisters_complete (rc : ResultCode) (s : State) : SameRegisters s (complete rc s) :=
  ⟨rfl, rfl, rfl, rfl, rfl, rfl, rfl, rfl, rfl, rfl, rfl⟩

/-- The DISPATCH step of an illegal word (60_exceptions.md R162). -/
theorem sequencerMove_of_illegal {s : State} {e : IllegalWord} (he : decode s.cmd = .error e) (hp : s.phase = .dispatch) :
    sequencerMove s = .next (complete .illegalCommand s) := by
  rw [sequencerMove, he]
  exact onDispatch_of_dispatch _ hp

/-- Settles O5: a word is illegal where it is not legal, and the six opcodes belong to one format each. -/
theorem illegalWordOutcome : Obligations.IllegalWordOutcome := by
  refine ⟨fun w => ?_, fun s e he hp => ⟨sequencerMove_of_illegal he hp, rfl, sameRegisters_complete _ s, rfl⟩⟩
  rw [exists_decode_error_iff, exists_decode_ok_iff]
  grind

/-! ### Completions -/

/-- How a move can end a command: with 0x00, as a bare completion with an error code, or as a failed decryption. -/
theorem SequencerEffect.completion_cases {i : Instr} {s t : State} (heff : SequencerEffect i s t)
    (hb : s.status.busy = true) (hdone : t.status.busy = false) :
    t.status.rc = 0x00#8 ∨ t = complete .lengthError s ∨ t = complete .authFailure { s with dout := 0 } := by
  cases heff with
  | still | requested | answered => simp [hb] at hdone
  | cleared | accumulated | keyed | encrypted | opened => exact .inl rfl
  | bare rc _ hrc =>
    rcases hrc with rfl | rfl
    · exact .inr (.inl rfl)
    · exact .inl rfl
  | rejected => exact .inr (.inr rfl)

/-- The same of the sequencer's move on any word (60_exceptions.md R160). -/
theorem sequencerMove_completion_cases {s t : State} (hmove : sequencerMove s = .next t) (hb : s.status.busy = true)
    (hdone : t.status.busy = false) :
    t.status.rc = 0x00#8 ∨ (∃ rc, (rc = .lengthError ∨ rc = .illegalCommand) ∧ t = complete rc s) ∨
      t = complete .authFailure { s with dout := 0 } := by
  rcases sequencerMove_effect hmove with ⟨i, -, heff⟩ | ⟨-, -, ⟨-, rfl⟩ | ⟨-, rfl⟩⟩
  · exact (heff.completion_cases hb hdone).imp_right (Or.imp_left fun e => ⟨_, .inl rfl, e⟩)
  · exact .inr (.inl ⟨_, .inr rfl, rfl⟩)
  · simp [hb] at hdone

/-- Settles O31: each way a command can end has its own result code, and says what was written. -/
theorem preciseCompletions : Obligations.PreciseCompletions := by
  intro s t hb hmove hdone
  rcases sequencerMove_completion_cases hmove hb hdone with hrc | ⟨rc, hcode, rfl⟩ | rfl
  · simp [hrc]
  · have hne : (complete rc s).status.rc ≠ 0x01#8 := by rcases hcode with rfl | rfl <;> simp [ResultCode.byte]
    exact ⟨fun _ => sameRegisters_complete rc s, fun hrc => absurd hrc hne⟩
  · exact ⟨by simp [ResultCode.byte], fun _ => ⟨rfl, sameRegisters_complete _ _⟩⟩

/-- Settles O19: the cleared request and answer are zero blocks with their valid bits off. -/
theorem completionEffect : Obligations.CompletionEffect := fun rc s => ⟨rfl, raise_eq_complete rc s⟩

/-- Settles O20, by computing the four bytes' signed readings. -/
theorem resultCodeBytes : Obligations.ResultCodeBytes := by
  unfold Obligations.ResultCodeBytes
  decide

/-! ### The interrupt line -/

theorem irq_of_not_done {s : State} (hd : s.status.done = false) : irq s = false := by rw [irq, hd, Bool.false_and]

theorem irq_of_masked {s : State} (hie : s.ie = false) : irq s = false := by rw [irq, hie, Bool.and_false]

theorem irq_complete (rc : ResultCode) (s : State) : irq (complete rc s) = s.ie := Bool.true_and s.ie

theorem regWrite_word_of_idle {s : State} (hb : s.status.busy = false) (i : RegNum) (w : Word) :
    regWrite s i (.word w) = writeControl s i w := if_neg (by simp [hb])

/-- Settles O13: completion sets DONE; each of the four other events clears DONE or IE. -/
theorem interruptFollowsDone : Obligations.InterruptFollowsDone := by
  refine ⟨fun s => rfl, fun rc s => ⟨irq_complete rc s, rfl⟩, fun w s => irq_of_not_done rfl, fun w s hb hw => ?_,
    fun w s hb hw => ?_, fun s => irq_of_not_done rfl⟩
  · rw [regWrite_word_of_idle hb]
    exact irq_of_not_done ((s.status.clearOnWrite_done w).trans (by simp [hw]))
  · rw [regWrite_word_of_idle hb]
    exact irq_of_masked hw

/-! ### Where the machine can stop -/

/-- A well-formed action of the host is an access the port knows (20_memory.md R54; 93 U6). -/
theorem hostAction_answers {act : HostAction} (hwf : act.wellFormed = true) (s : State) :
    ∃ t, hostAction act s = .next t := by
  cases act with
  | read i =>
    obtain ⟨v, hv⟩ := regRead_assigned s i hwf
    exact ⟨_, hostRead_of_regRead hv⟩
  | write i v =>
    obtain ⟨hi, hv⟩ := (write_wellFormed_iff i v).1 hwf
    exact ⟨_, hostWrite_of_fits s hi hv⟩
  | wait => exact ⟨_, rfl⟩
  | reset => exact ⟨_, rfl⟩

theorem hostMove_answers {s : State} (hwf : ∀ act rest, s.hostQueue = act :: rest → act.wellFormed = true) :
    ∃ t, hostMove s = .next t := by
  cases hq : s.hostQueue with
  | nil => exact ⟨_, hostMove_of_nil hq⟩
  | cons act rest =>
    rw [hostMove_of_cons hq]
    exact hostAction_answers (hwf act rest hq) _

/-- Settles O60: only the host's move can stop, and using up a schedule entry leaves its queue as it is. -/
theorem wellFormedHostNeverStops : Obligations.WellFormedHostNeverStops := by
  intro E s hwf
  rw [stepWith]
  cases nextAgent s with
  | host => exact hostMove_answers (s := popSchedule s) hwf
  | sequencer => exact sequencerMove_answers _
  | collaborator => exact ⟨_, rfl⟩

end Sys2Proof.Machine

/-! PROOFS. The reset and hazards family (70_reset_and_hazards.md): reset, the busy rule, the order of steps and its
independence of secrets, and completion within a bounded number of steps. -/

namespace Sys2Proof.Machine

/-! ### Reset -/

/-- Settles O16: the host's reset action is `resetBlock` on the state without that action. -/
theorem resetFromAnyState : Obligations.ResetFromAnyState := by
  intro E s rest hg hq
  exact (stepWith_of_nextAgent hg).trans (hostMove_of_cons (s := popSchedule s) hq)

/-! ### The busy rule -/

/-- Two states hold the same registers but for `STATUS.BUSY` and `STATUS.OVR`, which the busy rule leaves open. -/
def SameBusyRegisters (s t : State) : Prop :=
  SameRegisters s t ∧ t.status.done = s.status.done ∧ t.status.rc = s.status.rc

/-- While busy a write is dropped (20_memory.md R53). -/
theorem WriteEffect.of_busy {s t : State} (heff : WriteEffect s t) (hb : s.status.busy = true) : t = dropWrite s := by
  cases heff with
  | dropped => rfl
  | accepted _ hidle | statusCleared _ hidle | control _ hidle | data _ _ _ _ _ _ _ hidle => simp [hb] at hidle

/-- Of the host's actions only reset ends a command in flight. -/
theorem HostEffect.busy_keeps {s t : State} (heff : HostEffect s t) (hb : s.status.busy = true)
    (hb' : t.status.busy = true) : SameBusyRegisters s t := by
  cases heff with
  | nothing | hasRead | waited => exact ⟨by constructor <;> rfl, rfl, rfl⟩
  | wrote i v rest _ _ _ _ hw =>
    obtain rfl := hw.of_busy hb
    exact ⟨by constructor <;> rfl, rfl, rfl⟩
  | wasReset => cases hb'

/-- A sequencer's step that writes a register completes the command. -/
theorem SequencerEffect.busy_keeps {i : Instr} {s t : State} (heff : SequencerEffect i s t)
    (hb' : t.status.busy = true) : SameBusyRegisters s t := by
  cases heff with
  | still | requested | answered => exact ⟨by constructor <;> rfl, rfl, rfl⟩
  | bare | cleared | accumulated | keyed | encrypted | opened | rejected => cases hb'

theorem sequencerMove_busy_keeps {s t : State} (hmove : sequencerMove s = .next t) (hb' : t.status.busy = true) :
    SameBusyRegisters s t := by
  rcases sequencerMove_effect hmove with ⟨i, -, heff⟩ | ⟨-, -, ⟨-, rfl⟩ | ⟨-, rfl⟩⟩
  · exact heff.busy_keeps hb'
  · cases hb'
  · exact ⟨by constructor <;> rfl, rfl, rfl⟩

/-- The collaborator writes only the cipher port (10_state.md R39). -/
theorem collaboratorMove_keeps_registers (E : Cipher) (s : State) : SameBusyRegisters s (collaboratorMove E s) := by
  rcases collaboratorMove_cases E s with ⟨-, e⟩ | ⟨-, -, e⟩ | ⟨-, -, e⟩ <;> rw [e] <;>
    exact ⟨by constructor <;> rfl, rfl, rfl⟩

/-- Settles O32: using up a schedule entry changes no register, and then each agent's move keeps them. -/
theorem busyKeepsRegisters : Obligations.BusyKeepsRegisters := by
  intro E s t hb hstep hb'
  suffices hpop : SameBusyRegisters (popSchedule s) t by
    obtain ⟨⟨hcmd, hie, hy, hh, hx, hn, ha, hdin, htagin, hdout, htagout⟩, hdone, hrc⟩ := hpop
    exact ⟨⟨hcmd, hie, hy, hh, hx, hn, ha, hdin, htagin, hdout, htagout⟩, hdone, hrc⟩
  rcases stepWith_cases hstep with ⟨-, heff⟩ | ⟨-, hmove⟩ | ⟨-, rfl⟩
  · exact heff.busy_keeps hb hb'
  · exact sequencerMove_busy_keeps hmove hb'
  · exact collaboratorMove_keeps_registers E _

/-! ### Secret independence: the operations -/

theorem stepView_eq_iff {s s' : State} : stepView s = stepView s' ↔
    s.phase = s'.phase ∧ s.cmd = s'.cmd ∧ s.status.busy = s'.status.busy ∧ s.creq.valid = s'.creq.valid ∧
      s.creq.ksel = s'.creq.ksel ∧ s.crsp.valid = s'.crsp.valid ∧ s.hostQueue = s'.hostQueue ∧
      s.schedule = s'.schedule := by
  simp only [stepView, StepView.mk.injEq]

/-- Two outcomes that look the same in the order of steps: the same stop, or next states with the same step view. -/
inductive OutcomesAlike : Host.Outcome State Fault Refusal → Host.Outcome State Fault Refusal → Prop
  | next {t t' : State} : stepView t = stepView t' → OutcomesAlike (.next t) (.next t')
  | fault (f : Fault) : OutcomesAlike (.fault f) (.fault f)
  | refused (r : Refusal) : OutcomesAlike (.refused r) (.refused r)

/-- The result code is not in the step view, and neither is anything a completion clears or keeps beside it. -/
theorem stepView_complete_congr {s s' : State} (rc rc' : ResultCode) (h : stepView s = stepView s') :
    stepView (complete rc s) = stepView (complete rc' s') := by
  obtain ⟨-, hcmd, -, -, -, -, hqueue, hsched⟩ := stepView_eq_iff.1 h
  exact stepView_eq_iff.2 ⟨rfl, hcmd, rfl, rfl, rfl, rfl, hqueue, hsched⟩

theorem stepView_accept_congr {s s' : State} (w : Word) (h : stepView s = stepView s') :
    stepView (accept w s) = stepView (accept w s') := by
  obtain ⟨-, -, -, hreq, hslot, hans, hqueue, hsched⟩ := stepView_eq_iff.1 h
  exact stepView_eq_iff.2 ⟨rfl, rfl, rfl, hreq, hslot, hans, hqueue, hsched⟩

theorem stepView_resetBlock_congr {s s' : State} (h : stepView s = stepView s') :
    stepView (resetBlock s) = stepView (resetBlock s') := by
  obtain ⟨-, -, -, -, -, -, hqueue, hsched⟩ := stepView_eq_iff.1 h
  exact stepView_eq_iff.2 ⟨rfl, rfl, rfl, rfl, rfl, rfl, hqueue, hsched⟩

theorem stepView_popSchedule_congr {s s' : State} (h : stepView s = stepView s') :
    stepView (popSchedule s) = stepView (popSchedule s') := by
  obtain ⟨hphase, hcmd, hbusy, hreq, hslot, hans, hqueue, hsched⟩ := stepView_eq_iff.1 h
  exact stepView_eq_iff.2 ⟨hphase, hcmd, hbusy, hreq, hslot, hans, hqueue, congrArg List.tail hsched⟩

theorem stepView_withQueue_congr {s s' : State} (queue : List HostAction) (h : stepView s = stepView s') :
    stepView { s with hostQueue := queue } = stepView { s' with hostQueue := queue } := by
  obtain ⟨hphase, hcmd, hbusy, hreq, hslot, hans, -, hsched⟩ := stepView_eq_iff.1 h
  exact stepView_eq_iff.2 ⟨hphase, hcmd, hbusy, hreq, hslot, hans, rfl, hsched⟩

theorem onDispatch_alike {s s' t t' : State} (h : stepView s = stepView s') (ht : stepView t = stepView t') :
    OutcomesAlike (onDispatch s t) (onDispatch s' t') := by
  have hphase : s.phase = s'.phase := congrArg StepView.phase h
  rw [onDispatch, onDispatch, ← hphase]
  split
  · exact .next ht
  · exact .next h

theorem onAnswer_alike {s s' t t' : State} (h : stepView s = stepView s') (ht : stepView t = stepView t') :
    OutcomesAlike (onAnswer s t) (onAnswer s' t') := by
  have hans : s.crsp.valid = s'.crsp.valid := congrArg StepView.ansValid h
  rw [onAnswer, onAnswer, ← hans]
  split
  · exact .next ht
  · exact .next h

/-! ### Secret independence: the sequencer -/

/-- Absorbing completes, whatever the length. -/
theorem stepView_absorb (step : Block → Block → Block → Block) (xlen : Byte) (s : State) :
    stepView (absorb step xlen s) = stepView (complete .ok s) := by
  rcases absorb_cases step xlen s with ⟨-, e⟩ | ⟨-, e⟩ | ⟨-, -, e⟩ <;> rw [e] <;> rfl

/-- The comparison of the tags does not show in the order of steps. -/
theorem stepView_decryptFinish (s : State) : stepView (decryptFinish s) = stepView (complete .ok s) := by
  by_cases htag : ctDiff s.crsp.out0 s.tagin = 0#8
  · rw [decryptFinish_of_equal htag]
    rfl
  · rw [decryptFinish_of_unequal htag]
    rfl

/-- The length check reads the command word only. -/
theorem stepView_aeadDispatch_congr {s s' : State} (nlen alen dlen : Byte) (h : stepView s = stepView s') :
    stepView (aeadDispatch nlen alen dlen s) = stepView (aeadDispatch nlen alen dlen s') := by
  unfold aeadDispatch
  split
  · exact stepView_complete_congr _ _ h
  · obtain ⟨-, hcmd, hbusy, -, -, hans, hqueue, hsched⟩ := stepView_eq_iff.1 h
    exact stepView_eq_iff.2 ⟨rfl, hcmd, hbusy, rfl, rfl, hans, hqueue, hsched⟩

theorem stepView_aeadWait1_congr {s s' : State} (M M' : Block) (d : Nat) (h : stepView s = stepView s') :
    stepView (aeadWait1 M d s) = stepView (aeadWait1 M' d s') := by
  obtain ⟨-, hcmd, hbusy, -, -, -, hqueue, hsched⟩ := stepView_eq_iff.1 h
  exact stepView_eq_iff.2 ⟨rfl, hcmd, hbusy, rfl, rfl, rfl, hqueue, hsched⟩

theorem exec_alike (i : Instr) {s s' : State} (h : stepView s = stepView s') :
    OutcomesAlike (exec i s) (exec i s') := by
  have hphase : s.phase = s'.phase := congrArg StepView.phase h
  have hdone := stepView_complete_congr .ok .ok h
  cases i with
  | clear => exact onDispatch_alike h hdone
  | gfmac xlen | pvmac xlen =>
    exact onDispatch_alike h (by rw [stepView_absorb, stepView_absorb, hdone])
  | pvkey => exact onDispatch_alike h hdone
  | cy2enc nlen alen dlen =>
    rw [exec, exec, execCy2enc, execCy2enc, ← hphase]
    split
    · exact .next h
    · exact .next (stepView_aeadDispatch_congr nlen alen dlen h)
    · exact onAnswer_alike h (stepView_aeadWait1_congr _ _ _ h)
    · exact onAnswer_alike h hdone
  | cy2dec nlen alen dlen =>
    rw [exec, exec, execCy2dec, execCy2dec, ← hphase]
    split
    · exact .next h
    · exact .next (stepView_aeadDispatch_congr nlen alen dlen h)
    · exact onAnswer_alike h (stepView_aeadWait1_congr _ _ _ h)
    · exact onAnswer_alike h (by rw [stepView_decryptFinish, stepView_decryptFinish, hdone])

theorem sequencerMove_alike {s s' : State} (h : stepView s = stepView s') :
    OutcomesAlike (sequencerMove s) (sequencerMove s') := by
  have hcmd : s.cmd = s'.cmd := congrArg StepView.cmd h
  rw [sequencerMove, sequencerMove, ← hcmd]
  split
  · exact exec_alike _ h
  · exact onDispatch_alike h (stepView_complete_congr _ _ h)

/-! ### Secret independence: the collaborator and the host -/

/-- Whether an answer is delivered does not depend on the request's blocks or on the cipher. -/
theorem stepView_collaboratorMove_congr (E E' : Cipher) {s s' : State} (h : stepView s = stepView s') :
    stepView (collaboratorMove E s) = stepView (collaboratorMove E' s') := by
  obtain ⟨hphase, hcmd, hbusy, hreq, hslot, hans, hqueue, hsched⟩ := stepView_eq_iff.1 h
  rw [collaboratorMove, collaboratorMove, ← hreq, ← hphase]
  split
  · refine stepView_eq_iff.2 ⟨rfl, hcmd, hbusy, rfl, hslot, ?_, hqueue, hsched⟩
    dsimp only
    split
    · exact hans
    · rfl
  · exact h

/-- Whether a register can be read depends on its number only. -/
theorem hostRead_alike (i : RegNum) {s s' : State} (h : stepView s = stepView s') :
    OutcomesAlike (hostRead i s) (hostRead i s') := by
  rcases Nat.lt_or_ge i.toNat 12 with hi | hi
  · obtain ⟨v, hv⟩ := regRead_assigned s i ((assigned_iff i).2 hi)
    obtain ⟨v', hv'⟩ := regRead_assigned s' i ((assigned_iff i).2 hi)
    rw [hostRead_of_regRead hv, hostRead_of_regRead hv']
    exact .next h
  · rw [hostRead_reserved s hi, hostRead_reserved s' hi]
    exact .refused _

theorem stepView_writeData (s : State) (i : RegNum) (v : Block) : stepView (writeData s i v) = stepView s := by
  unfold writeData
  split <;> rfl

/-- Of the control registers only `CMD` shows in the order of steps. -/
theorem stepView_writeControl_congr {s s' : State} (i : RegNum) (w : Word) (h : stepView s = stepView s') :
    stepView (writeControl s i w) = stepView (writeControl s' i w) := by
  unfold writeControl
  split
  · exact stepView_accept_congr w h
  · exact h
  · exact h
  · exact h

theorem stepView_regWrite_congr {s s' : State} (i : RegNum) (v : RegValue) (h : stepView s = stepView s') :
    stepView (regWrite s i v) = stepView (regWrite s' i v) := by
  have hbusy : s.status.busy = s'.status.busy := congrArg StepView.busy h
  unfold regWrite
  rw [← hbusy]
  split
  · exact h
  · cases v with
    | word w => exact stepView_writeControl_congr i w h
    | block b => exact (stepView_writeData s i b).trans (h.trans (stepView_writeData s' i b).symm)

theorem hostWrite_alike (i : RegNum) (v : RegValue) {s s' : State} (h : stepView s = stepView s') :
    OutcomesAlike (hostWrite i v s) (hostWrite i v s') := by
  unfold hostWrite
  split
  · split
    · exact .next (stepView_regWrite_congr i v h)
    · exact .fault _
  · exact .refused _

/-- A read of `wait` goes by BUSY alone (30_encoding.md R80). -/
theorem stepView_hostWait_congr {s s' : State} (h : stepView s = stepView s') :
    stepView (hostWait s) = stepView (hostWait s') := by
  obtain ⟨hphase, hcmd, hbusy, hreq, hslot, hans, hqueue, hsched⟩ := stepView_eq_iff.1 h
  exact stepView_eq_iff.2 ⟨hphase, hcmd, hbusy, hreq, hslot, hans, by simp [hbusy, hqueue], hsched⟩

theorem hostAction_alike (act : HostAction) {s s' : State} (h : stepView s = stepView s') :
    OutcomesAlike (hostAction act s) (hostAction act s') := by
  cases act with
  | read i => exact hostRead_alike i h
  | write i v => exact hostWrite_alike i v h
  | wait => exact .next (stepView_hostWait_congr h)
  | reset => exact .next (stepView_resetBlock_congr h)

theorem hostMove_alike {s s' : State} (h : stepView s = stepView s') :
    OutcomesAlike (hostMove s) (hostMove s') := by
  have hqueue : s.hostQueue = s'.hostQueue := congrArg StepView.hostQueue h
  rw [hostMove, hostMove, ← hqueue]
  split
  · exact .next h
  · exact hostAction_alike _ (stepView_withQueue_congr _ h)

/-! ### Secret independence: the step -/

theorem defaultAgent_congr {s s' : State} (h : stepView s = stepView s') : defaultAgent s = defaultAgent s' := by
  obtain ⟨hphase, -, -, hreq, -, hans, hqueue, -⟩ := stepView_eq_iff.1 h
  have hwaits : hostWaits s = hostWaits s' := by rw [hostWaits, hostWaits, hqueue]
  have henabled : sequencerEnabled s = sequencerEnabled s' := by
    rw [sequencerEnabled, sequencerEnabled, hphase, hans]
  rw [defaultAgent, defaultAgent, hwaits, henabled, hreq]

theorem nextAgent_congr {s s' : State} (h : stepView s = stepView s') : nextAgent s = nextAgent s' := by
  have hsched : s.schedule = s'.schedule := congrArg StepView.schedule h
  rw [nextAgent, nextAgent, hsched, defaultAgent_congr h]

/-- The step view alone decides which agent moves, whether it stops, and the next step view. -/
theorem stepWith_alike (E E' : Cipher) {s s' : State} (h : stepView s = stepView s') :
    OutcomesAlike (stepWith E s) (stepWith E' s') := by
  have hpop := stepView_popSchedule_congr h
  rw [stepWith, stepWith, ← nextAgent_congr h]
  cases nextAgent s with
  | host => exact hostMove_alike hpop
  | sequencer => exact sequencerMove_alike hpop
  | collaborator => exact .next (stepView_collaboratorMove_congr E E' hpop)

/-- Settles O58: each agent's move is determined, up to the step view, by the step view. -/
theorem stepOrderIsSecretIndependent : Obligations.StepOrderIsSecretIndependent := by
  intro E E' s s' h
  have halike := stepWith_alike E E' h
  generalize stepWith E s = o, stepWith E' s' = o' at halike ⊢
  cases halike with
  | next ht => exact .inl ⟨_, _, rfl, rfl, ht⟩
  | fault f => exact .inr (.inl ⟨f, rfl, rfl⟩)
  | refused r => exact .inr (.inr ⟨r, rfl, rfl⟩)

/-! ### Progress in the default order -/

/-- How many moves of sequencer and collaborator the command in flight needs at most. -/
def movesLeft (s : State) : Nat :=
  match s.phase with
  | .idle => 0
  | .dispatch => 5
  | .aeWait1 => if s.crsp.valid then 3 else 4
  | .aeWait2 => if s.crsp.valid then 1 else 2

theorem movesLeft_le_five (s : State) : movesLeft s ≤ 5 := by
  unfold movesLeft
  split
  · decide
  · decide
  · split <;> decide
  · split <;> decide

/-- A move brings a command in flight closer to its completion, and the completion sets DONE. -/
def Advances (s t : State) : Prop := movesLeft t < movesLeft s ∧ (t.status.busy = false → t.status.done = true)

theorem advances_complete {s : State} (rc : ResultCode) (u : State) (hpos : 0 < movesLeft s) :
    Advances s (complete rc u) := ⟨hpos, fun _ => rfl⟩

theorem sequencerMove_advances_dispatch {s t : State} (hp : s.phase = .dispatch) (hb : s.status.busy = true)
    (hmove : sequencerMove s = .next t) : Advances s t := by
  have hfive : movesLeft s = 5 := by rw [movesLeft, hp]
  have hpos : 0 < movesLeft s := by omega
  rcases sequencerMove_effect hmove with ⟨i, -, heff⟩ | ⟨-, -, ⟨-, rfl⟩ | ⟨hne, -⟩⟩
  · cases heff with
    | still hne => exact absurd hp hne
    | bare | cleared | accumulated | keyed | encrypted | opened | rejected => exact advances_complete _ _ hpos
    | requested =>
      refine ⟨?_, by simp [hb]⟩
      rw [hfive]
      simp only [movesLeft]
      split <;> decide
    | answered _ _ _ _ hwait => simp [hp] at hwait
  · exact advances_complete _ _ hpos
  · exact absurd hp hne

theorem sequencerMove_advances_aeWait1 {s t : State} {nlen alen dlen : Byte} (hp : s.phase = .aeWait1)
    (hv : s.crsp.valid = true) (hb : s.status.busy = true) (hcy : IsCymric2 s.cmd nlen alen dlen)
    (hmove : sequencerMove s = .next t) : Advances s t := by
  have hwait (M : Block) : Advances s (aeadWait1 M dlen.toNat s) := ⟨by simp [movesLeft, hp, hv], by simp [hb]⟩
  rcases hcy with hdec | hdec <;> rw [sequencerMove_of_decode hdec] at hmove
  · rw [exec_cy2enc_aeWait1 nlen alen dlen hp hv] at hmove
    cases hmove
    exact hwait _
  · rw [exec_cy2dec_aeWait1 nlen alen dlen hp hv] at hmove
    cases hmove
    exact hwait _

theorem sequencerMove_advances_aeWait2 {s t : State} {nlen alen dlen : Byte} (hp : s.phase = .aeWait2)
    (hv : s.crsp.valid = true) (hcy : IsCymric2 s.cmd nlen alen dlen)
    (hmove : sequencerMove s = .next t) : Advances s t := by
  have hpos : 0 < movesLeft s := by simp [movesLeft, hp, hv]
  rcases hcy with hdec | hdec <;> rw [sequencerMove_of_decode hdec] at hmove
  · rw [exec_cy2enc_aeWait2 nlen alen dlen hp hv] at hmove
    cases hmove
    exact advances_complete .ok _ hpos
  · rw [exec_cy2dec_aeWait2 nlen alen dlen hp hv] at hmove
    cases hmove
    unfold decryptFinish
    split
    · exact advances_complete .ok _ hpos
    · exact advances_complete .authFailure _ hpos

/-- An enabled sequencer brings the command closer to its completion. -/
theorem Inv.sequencerMove_advances {E : Cipher} {s t : State} (hinv : Inv E s) (hon : sequencerEnabled s = true)
    (hmove : sequencerMove s = .next t) : Advances s t := by
  cases hp : s.phase with
  | idle => simp [sequencerEnabled, hp] at hon
  | dispatch => exact sequencerMove_advances_dispatch hp (hinv.busy_of_phase (by simp [hp])) hmove
  | aeWait1 =>
    obtain ⟨nlen, alen, dlen, hcy, -, -⟩ := hinv.first_call hp
    have hv : s.crsp.valid = true := by simpa [sequencerEnabled, hp] using hon
    exact sequencerMove_advances_aeWait1 hp hv (hinv.busy_of_phase (by simp [hp])) hcy hmove
  | aeWait2 =>
    obtain ⟨nlen, alen, dlen, hcy, -, -⟩ := hinv.tag_call hp
    have hv : s.crsp.valid = true := by simpa [sequencerEnabled, hp] using hon
    exact sequencerMove_advances_aeWait2 hp hv hcy hmove

/-- A command whose sequencer is not enabled waits for an answer, and its request is pending (10_state.md R33). -/
theorem Inv.request_pending {E : Cipher} {s : State} (hinv : Inv E s) (hb : s.status.busy = true)
    (hoff : sequencerEnabled s = false) :
    (s.phase = .aeWait1 ∨ s.phase = .aeWait2) ∧ s.crsp.valid = false ∧ s.creq.valid = true := by
  cases hp : s.phase with
  | idle => simp [hinv.idle_iff.1 hp] at hb
  | dispatch => simp [sequencerEnabled, hp] at hoff
  | aeWait1 =>
    have hv : s.crsp.valid = false := by simpa [sequencerEnabled, hp] using hoff
    obtain ⟨nlen, alen, dlen, -, -, hcall⟩ := hinv.first_call hp
    rcases hcall.port with ⟨hreq, -⟩ | ⟨-, hans⟩
    · exact ⟨.inl rfl, hv, by rw [hreq]⟩
    · simp [hans] at hv
  | aeWait2 =>
    have hv : s.crsp.valid = false := by simpa [sequencerEnabled, hp] using hoff
    obtain ⟨nlen, alen, dlen, -, -, hcall⟩ := hinv.tag_call hp
    rcases hcall.port with ⟨hreq, -⟩ | ⟨-, hans⟩
    · exact ⟨.inr rfl, hv, by rw [hreq]⟩
    · simp [hans] at hv

/-- The answer to a pending request brings the command closer to its completion. -/
theorem advances_answered (E : Cipher) {s : State} (hp : s.phase = .aeWait1 ∨ s.phase = .aeWait2)
    (hv : s.crsp.valid = false) (hb : s.status.busy = true) : Advances s (answered E s) := by
  refine ⟨?_, by simp [answered, hb]⟩
  rcases hp with hp | hp <;> simp [movesLeft, answered, hp, hv]

/-- No move of the sequencer touches the outside world. -/
theorem sequencerMove_sameOutside {s t : State} (hmove : sequencerMove s = .next t) : SameOutside s t := by
  rcases sequencerMove_effect hmove with ⟨i, -, heff⟩ | ⟨-, -, ⟨-, rfl⟩ | ⟨-, rfl⟩⟩
  · exact heff.frame.1
  · exact ⟨rfl, rfl, rfl⟩
  · exact ⟨rfl, rfl, rfl⟩

/-- While the host waits, a step of a busy block brings the command closer to its completion
(70_reset_and_hazards.md R190). -/
theorem Inv.busy_step {E : Cipher} {s : State} (hinv : Inv E s) (hb : s.status.busy = true) (hs : s.schedule = [])
    (hw : hostWaits s = true) : ∃ t, stepWith E s = .next t ∧ SameOutside s t ∧ Advances s t := by
  cases hon : sequencerEnabled s with
  | true =>
    obtain ⟨t, hmove⟩ := sequencerMove_answers s
    exact ⟨t, (stepWith_sequencer hs hw hon).trans hmove, sequencerMove_sameOutside hmove,
      hinv.sequencerMove_advances hon hmove⟩
  | false =>
    obtain ⟨hp, hv, hreq⟩ := hinv.request_pending hb hon
    have hmove : collaboratorMove E s = answered E s :=
      (collaboratorAnswers E s hreq).1 (by rcases hp with hp | hp <;> simp [hp])
    exact ⟨answered E s, (stepWith_collaborator hs hw hon hreq).trans (congrArg _ hmove), ⟨rfl, rfl, rfl⟩,
      advances_answered E hp hv hb⟩

/-- In an idle block with no schedule imposed only the host can move. -/
theorem Inv.nextAgent_of_idle {E : Cipher} {s : State} (hinv : Inv E s) (hb : s.status.busy = false)
    (hs : s.schedule = []) : nextAgent s = .host := by
  have hp := hinv.idle_iff.2 hb
  simp [nextAgent, hs, defaultAgent, sequencerEnabled, hp, (hinv.idle_clear hp).no_request]

theorem hostWaits_of_ne_wait {s : State} {act : HostAction} {rest : List HostAction} (hq : s.hostQueue = act :: rest)
    (hne : act ≠ .wait) : hostWaits s = false := by
  rw [hostWaits, hq]
  cases act with
  | wait => exact absurd rfl hne
  | read | write | reset => rfl

/-- No register write touches the outside world. -/
theorem WriteEffect.sameOutside {s t : State} (heff : WriteEffect s t) : SameOutside s t := by
  cases heff <;> exact ⟨rfl, rfl, rfl⟩

/-- The host's move uses up its action, unless it is `wait` on a busy block. -/
theorem HostEffect.uses_action {s t : State} {act : HostAction} {rest : List HostAction} (heff : HostEffect s t)
    (hq : s.hostQueue = act :: rest) (hwait : act = .wait → s.status.busy = false) :
    t.hostQueue = rest ∧ t.schedule = s.schedule := by
  cases heff with
  | nothing hnil => simp [hnil] at hq
  | hasRead _ _ _ hq' =>
    cases hq'.symm.trans hq
    exact ⟨rfl, rfl⟩
  | wrote _ _ _ _ hq' _ _ hw =>
    cases hq'.symm.trans hq
    exact ⟨hw.sameOutside.hostQueue, hw.sameOutside.schedule⟩
  | waited _ hq' =>
    cases hq'.symm.trans hq
    exact ⟨by simp [hwait rfl], rfl⟩
  | wasReset _ hq' =>
    cases hq'.symm.trans hq
    exact ⟨rfl, rfl⟩

/-- A well-formed action that need not wait is the next step, and is used up. -/
theorem stepWith_uses_action {E : Cipher} {s : State} {act : HostAction} {rest : List HostAction}
    (hg : nextAgent s = .host) (hs : s.schedule = []) (hq : s.hostQueue = act :: rest) (hwf : act.wellFormed = true)
    (hwait : act = .wait → s.status.busy = false) :
    ∃ t, stepWith E s = .next t ∧ t.hostQueue = rest ∧ t.schedule = [] := by
  obtain ⟨t, hmove⟩ := hostMove_answers (s := s) fun _ _ hq' => by
    cases hq.symm.trans hq'
    exact hwf
  obtain ⟨hqueue, hsched⟩ := (hostMove_effect hmove).uses_action hq hwait
  refine ⟨t, ?_, hqueue, hsched.trans hs⟩
  rw [stepWith_of_nextAgent hg, popSchedule_of_nil hs]
  exact hmove

/-- How many steps a script needs at most: each action may start a command of five moves. -/
def stepsToEnd (s : State) : Nat := 6 * s.hostQueue.length + movesLeft s

/-- Until the script has ended, a step in the default order brings its end closer. -/
theorem Inv.script_step {E : Cipher} {s : State} (hinv : Inv E s) (hs : s.schedule = [])
    (hwf : ∀ act ∈ s.hostQueue, act.wellFormed = true) (hend : scriptEnded s = false) :
    ∃ t, stepWith E s = .next t ∧ t.schedule = [] ∧ t.hostQueue ⊆ s.hostQueue ∧ stepsToEnd t < stepsToEnd s := by
  by_cases hcommand : s.status.busy = true ∧ hostWaits s = true
  · obtain ⟨hb, hw⟩ := hcommand
    obtain ⟨t, hstep, hout, hless, -⟩ := hinv.busy_step hb hs hw
    refine ⟨t, hstep, hout.schedule.trans hs, hout.hostQueue ▸ List.Subset.refl _, ?_⟩
    simpa [stepsToEnd, hout.hostQueue] using hless
  · cases hq : s.hostQueue with
    | nil =>
      have hb : s.status.busy = true := by simpa [scriptEnded, hq] using hend
      exact absurd ⟨hb, by rw [hostWaits, hq]⟩ hcommand
    | cons act rest =>
      have hwait : act = .wait → s.status.busy = false := by
        rintro rfl
        simpa [hostWaits, hq] using hcommand
      have hg : nextAgent s = .host := by
        by_cases hact : act = .wait
        · exact hinv.nextAgent_of_idle (hwait hact) hs
        · exact nextAgent_host hs (hostWaits_of_ne_wait hq hact)
      obtain ⟨t, hstep, hqueue, hsched⟩ := stepWith_uses_action (E := E) hg hs hq (hwf act (by simp [hq])) hwait
      refine ⟨t, hstep, hsched, by simp [hqueue], ?_⟩
      have hfive := movesLeft_le_five t
      simp only [stepsToEnd, hqueue, hq, List.length_cons]
      omega

theorem runToEnd_of_ended (E : Cipher) (fuel : Nat) {s : State} (hend : scriptEnded s = true) :
    runToEnd E fuel s = .next s := by
  cases fuel with
  | zero => rfl
  | succ fuel => rw [runToEnd, if_pos hend]

theorem runToEnd_step {E : Cipher} (fuel : Nat) {s t : State} (hend : scriptEnded s = false)
    (hstep : stepWith E s = .next t) : runToEnd E (fuel + 1) s = runToEnd E fuel t := by
  rw [runToEnd, if_neg (by simp [hend]), hstep]

/-- A script of well-formed actions reaches the end of its run (00_scope.md R18). -/
theorem Inv.runToEnd_ends {E : Cipher} {s : State} (hinv : Inv E s) (hs : s.schedule = [])
    (hwf : ∀ act ∈ s.hostQueue, act.wellFormed = true) {fuel : Nat} (hfuel : stepsToEnd s ≤ fuel) :
    ∃ t, runToEnd E fuel s = .next t ∧ scriptEnded t = true := by
  induction fuel generalizing s with
  | zero =>
    cases hend : scriptEnded s with
    | true => exact ⟨s, rfl, hend⟩
    | false =>
      obtain ⟨t, -, -, -, hless⟩ := hinv.script_step hs hwf hend
      omega
  | succ fuel ih =>
    cases hend : scriptEnded s with
    | true => exact ⟨s, runToEnd_of_ended E _ hend, hend⟩
    | false =>
      obtain ⟨t, hstep, hsched, hsub, hless⟩ := hinv.script_step hs hwf hend
      rw [runToEnd_step fuel hend hstep]
      exact ih (everyStepKeepsInvariant E s t hinv hstep) hsched (fun act hact => hwf act (hsub hact)) (by omega)

/-- A busy block whose host waits completes within the moves its command has left. -/
theorem Inv.runWith_completes {E : Cipher} {s : State} (hinv : Inv E s) (hb : s.status.busy = true)
    (hs : s.schedule = []) (hw : hostWaits s = true) {m : Nat} (hm : movesLeft s ≤ m) :
    ∃ k t, 1 ≤ k ∧ k ≤ m ∧ runWith E k s = .next t ∧ t.status.busy = false ∧ t.status.done = true := by
  induction m generalizing s with
  | zero =>
    obtain ⟨t, -, -, hless, -⟩ := hinv.busy_step hb hs hw
    omega
  | succ m ih =>
    obtain ⟨t, hstep, hout, hless, hdone⟩ := hinv.busy_step hb hs hw
    cases hb' : t.status.busy with
    | false => exact ⟨1, t, by omega, by omega, (runWith_single E s).trans hstep, hb', hdone hb'⟩
    | true =>
      have hw' : hostWaits t = true := by rwa [hostWaits, hout.hostQueue]
      obtain ⟨k, u, -, hk, hrun, hidle, hdone'⟩ :=
        ih (everyStepKeepsInvariant E s t hinv hstep) hb' (hout.schedule.trans hs) hw' (by omega)
      exact ⟨k + 1, u, by omega, by omega, (runWith_one E k hstep).trans hrun, hidle, hdone'⟩

/-- Settles O57: both bounds are a measure that every step of the default order makes smaller. -/
theorem completionWithinFiveSteps : Obligations.CompletionWithinFiveSteps := by
  refine ⟨fun E s hinv hb hs hw => hinv.runWith_completes hb hs hw (movesLeft_le_five s),
    fun E s hinv hs hwf => ?_, fun E s hinv hs hq hb => ?_⟩
  · obtain ⟨t, hrun, hend⟩ := hinv.runToEnd_ends hs hwf (Nat.add_le_add_left (movesLeft_le_five s) _)
    exact ⟨t, hrun, (scriptEnded_iff t).1 hend⟩
  · rw [stepWith_of_nextAgent (hinv.nextAgent_of_idle hb hs), popSchedule_of_nil hs]
    exact hostMove_of_nil hq

end Sys2Proof.Machine
